-- ==== Sys2Proof/Word.lean ====
section
/-! DEFINITION. The two word types of the engine: the byte, unit of every memory access (20_memory R37), and the
32-bit register word (10_state R15). Lengths and offsets are natural numbers (00_scope R12) and have no word type. -/

namespace Sys2Proof

/-- A byte: 8 bits, the unit of every access to `IN` and `OUT` (00_scope R12, 20_memory R37). -/
abbrev Byte := BitVec 8

/-- A 32-bit register word: `CMD`, `LEVEL`, `STATUS`, `CRC_ACC` (10_state R15). -/
abbrev Word := BitVec 32

end Sys2Proof
end

