-- ==== Sys2Proof/Machine/State.lean ====
section
/-! DEFINITION. The state of the engine, whole (10_state R15), as plain data; the state after reset
(70_reset_and_hazards R132); the reasons a step can stop; and, marked as the model's own, the host's pending actions,
what the host has read and the count of free values drawn. -/

namespace Sys2Proof.Machine

/-- Where the sequencer stands (10_state R24). -/
inductive SeqState where
  | idle | validate | chunk | eof | block | gzip | done | fail
deriving DecidableEq, Repr

/-- The error classes (60_exceptions R111); `none` is `NONE`. -/
inductive ErrClass where
  | none | invalidArgument | compressFailed | resourceExhausted
deriving DecidableEq, Repr

/-- A byte memory: cells (offset, byte) with offsets strictly rising. An offset that no cell lists holds no value. -/
abbrev Memory := List Host.Cell

/-- The canonical form of a memory: offsets strictly rising. Since an unlisted offset holds no value at all, no cell
can repeat what an unlisted offset reads as, and equal memories are equal lists. -/
abbrev Memory.wf (m : Memory) : Prop := m.Pairwise (fun x y => x.1 < y.1)

/-- An action of the host (44_host_commands R109, R110; 70_reset_and_hazards R131). -/
inductive HostLine where
  /-- `in <bytes>`: the host makes `IN` hold these bytes, from offset 0. -/
  | input (bytes : List Byte)
  /-- A register write by index (R101 to R103); `wr`, `cmd`, `block`, `bgzf` and `gzip` are all of this form. -/
  | write (index value : Nat)
  /-- `rd`: a register read by index (R100). -/
  | read (index : Nat)
  /-- The host reads `count` bytes of `OUT` from `offset` (70_reset_and_hazards R136). -/
  | readOut (offset count : Nat)
  /-- The host takes the result of a finished command, or its diagnostic (R110). -/
  | takeResult
  /-- `wait`: read `STATUS` until `BUSY` = 0; the engine steps meanwhile. -/
  | wait
  /-- The host does nothing for one step of the engine (the model's own line, log 1). -/
  | pass
  /-- The reset input is asserted (70_reset_and_hazards R131). -/
  | reset
deriving DecidableEq, Repr

/-- What a read by the host returned (the model's own record, log 15). -/
inductive Seen where
  /-- A register read: its index and the number read (44_host_commands R100). -/
  | register (index value : Nat)
  /-- Bytes of `OUT` read from an offset (70_reset_and_hazards R136). -/
  | outBytes (offset : Nat) (bytes : List Byte)
  /-- The result of a successful command (44_host_commands R110). -/
  | result (bytes : List Byte)
  /-- The diagnostic of a failed command: `ERR`, `STAGE`, `ERR_OFFSET` (44_host_commands R110). -/
  | diagnostic (err : ErrClass) (stage : BitVec 3) (offset : Nat)
deriving DecidableEq, Repr

/-- Everything 10_state R15 gives the engine, one field a row, and the model's own three fields at the end.
`CMD` and `STATUS` have no storage of their own (10_state R16, R20) and `CTX` is absent between steps (R29).
The lengths and offsets are natural numbers below 2^LEN_BITS (00_scope R12); `State.Inv` of Safety.lean says so. -/
structure State where
  /-- `LEVEL`, register 1 (10_state R17). -/
  level : Word
  /-- `IN_LEN`, register 2 (10_state R18). -/
  inLen : Nat
  /-- `CAP`, register 3 (10_state R19). -/
  cap : Nat
  /-- `OUT_LEN`, register 5 (10_state R21). -/
  outLen : Nat
  /-- `ERR_OFFSET`, register 6 (10_state R22). -/
  errOffset : Nat
  /-- `CMD_L`, the command word latched at START; what register 0 reads as (10_state R16, R23). -/
  cmdL : Word
  /-- `LVL_L`, the level latched at START (10_state R23). -/
  lvlL : Word
  /-- `N_L`, the input length latched at START (10_state R23). -/
  nL : Nat
  /-- `CAP_L`, the capacity latched at START (10_state R23). -/
  capL : Nat
  /-- `STATE` (10_state R24). -/
  seq : SeqState
  /-- `ERR` (60_exceptions R111). -/
  err : ErrClass
  /-- `STAGE` (60_exceptions R115). -/
  stage : BitVec 3
  /-- `OFF` (10_state R25). -/
  off : Nat
  /-- `OUT_CAP` (10_state R28). -/
  outCap : Nat
  /-- `ISIZE_R` (10_state R26). -/
  isizeR : BitVec 17
  /-- `PLEN` (10_state R26). -/
  plen : BitVec 17
  /-- `BLEN` (10_state R26). -/
  blen : BitVec 17
  /-- `CRC_ACC` (10_state R27). -/
  crcAcc : Word
  /-- `IN` (10_state R30). -/
  input : Memory
  /-- `OUT` (10_state R31). -/
  out : Memory
  /-- The model's own: the host's pending actions, oldest first (log 1). -/
  hostTodo : List HostLine
  /-- The model's own: what the host's reads returned, newest first (log 15). -/
  hostSaw : List Seen
  /-- The model's own: how many free values have been drawn (log 9). -/
  draws : Nat
deriving DecidableEq, Repr

/-- Why the machine stops with a fault. The engine's own failures are no faults: they are states
(60_exceptions R118). -/
inductive Fault where
  /-- Raised by a meaning (and by the step of a reserved word) in a sequencer state that no rule lets its command
  enter, such as `BLOCK` in `S_CHUNK` (10_state R24). Safe: the model stops, and `State.Inv` rules it out (log 3). -/
  | noRuleInState
deriving DecidableEq, Repr

/-- Why a run has no meaning. -/
inductive Refusal where
  /-- Raised by `exec` for an instruction without a meaning; no arm raises it. Safe. -/
  | notModelled (mnemonic : String)
  /-- Raised by a START that announces more input than the host supplied (70_reset_and_hazards R134: "the command has
  no meaning"; 93_implementation_defined U13: refuse), and by an engine step that reads `IN` where no byte was
  supplied, which `State.Inv` rules out (log 7). Safe. -/
  | inputNotSupplied
  /-- Raised by the host line that changes `IN` while a command runs (20_memory R47; 93_implementation_defined U1:
  refuse). Safe. -/
  | inputChangedWhileBusy
  /-- Raised by a host write of a number that does not fit the register: the host has no such write (10_state R18,
  44_host_commands R107). Safe (log 13). -/
  | valueDoesNotFit
deriving DecidableEq, Repr

/-- The state after reset (70_reset_and_hazards R132). `ISIZE_R`, `PLEN`, `BLEN` and `CRC_ACC` are unspecified there:
DESIGN CHOICE 0 (log 4). `IN` is not reset: here nothing is supplied yet (log 7). The last three fields are the
model's own. -/
def State.reset : State where
  level := 9#32
  inLen := 0
  cap := 65536
  outLen := 0
  errOffset := 0
  cmdL := 0#32
  lvlL := 9#32
  nL := 0
  capL := 65536
  seq := .idle
  err := .none
  stage := 0#3
  off := 0
  outCap := 0
  isizeR := 0#17
  plen := 0#17
  blen := 0#17
  crcAcc := 0#32
  input := []
  out := []
  hostTodo := []
  hostSaw := []
  draws := 0

end Sys2Proof.Machine
end

