-- ==== Sys2Proof/Machine/Flags.lean ====
section
/-! DEFINITION. The status word and its fields (10_state R20, R24; 60_exceptions R111). -/

namespace Sys2Proof.Machine

/-- The codes of the sequencer states (10_state R24). -/
def SeqState.code : SeqState → BitVec 3
  | .idle => 0#3
  | .validate => 1#3
  | .chunk => 2#3
  | .eof => 3#3
  | .block => 4#3
  | .gzip => 5#3
  | .done => 6#3
  | .fail => 7#3

/-- The codes of the error classes (60_exceptions R111). -/
def ErrClass.code : ErrClass → BitVec 2
  | .none => 0#2
  | .invalidArgument => 1#2
  | .compressFailed => 2#2
  | .resourceExhausted => 3#2

/-- `BUSY` as a function of `STATE` (10_state R20). -/
def SeqState.busy : SeqState → Bool
  | .validate => true
  | .chunk => true
  | .eof => true
  | .block => true
  | .gzip => true
  | .idle => false
  | .done => false
  | .fail => false

/-- `BUSY`: not a stored bit, computed from `STATE` (10_state R20). -/
def State.busy (s : State) : Bool := s.seq.busy

/-- `STATUS` (10_state R20): bits 2:0 `STATE`, 3 `BUSY`, 5:4 `ERR`, 7:6 zero, 10:8 `STAGE`, 31:11 zero. -/
def State.status (s : State) : Word :=
  0#21 ++ s.stage ++ 0#2 ++ s.err.code ++ BitVec.ofBool s.busy ++ s.seq.code

end Sys2Proof.Machine
end

