-- ==== Sys2Proof/Syntax.lean ====
section
/-! DEFINITION. The operations of the engine as terms: one constructor for each row of the command table
(30_encoding R59). -/

namespace Sys2Proof

/-- A command the engine has an operation for (00_scope R2). The operands in the command word are its two flag bits;
level, length, capacity and input are in registers and memory (30_encoding R58). -/
inductive Instr where
  /-- `BLOCK`, `OP` = 01: the Block Compressor (41_block_compressor R71). `eof` is ignored; either value is legal. -/
  | block (eof null : Bool)
  /-- `BGZF`, `OP` = 10: the BGZF Encoder (42_bgzf_encoder R81). `eof` is `append_eof`. -/
  | bgzf (eof null : Bool)
  /-- `GZIP`, `OP` = 11: the Plain Gzip Encoder (43_gzip_encoder R94). `eof` is ignored; either value is legal. -/
  | gzip (eof null : Bool)
deriving DecidableEq, Repr

end Sys2Proof
end

