-- ==== Sys2Proof/Decode.lean ====
section
/-! DEFINITION. The command word (30_encoding Part B): the decoder, total on every 32-bit word and rejecting the
reserved words by name, and after it the encoder. -/

namespace Sys2Proof

/-- Why a command word names no operation (30_encoding R60). -/
inductive DecodeError where
  /-- One of bits 31:4 is set. -/
  | reservedBits
  /-- Bits 31:4 are zero and `OP` is 00. -/
  | reservedOp
deriving DecidableEq, Repr

/-- The field `OP`, bits 1:0 (30_encoding R58). -/
def opField (w : Word) : BitVec 2 := w.extractLsb' 0 2

/-- The field `EOF`, bit 2 (30_encoding R58). -/
def eofField (w : Word) : Bool := w.getLsbD 2

/-- The field `IN_NULL`, bit 3 (30_encoding R58). -/
def nullField (w : Word) : Bool := w.getLsbD 3

/-- The reserved field, bits 31:4 (30_encoding R58). -/
def reservedField (w : Word) : BitVec 28 := w.extractLsb' 4 28

/-- The operation a command word selects, or why it selects none (30_encoding R59, R60). -/
def decode (w : Word) : Except DecodeError Instr :=
  if reservedField w ≠ 0#28 then .error .reservedBits
  else if opField w = 0b01#2 then .ok (.block (eofField w) (nullField w))
  else if opField w = 0b10#2 then .ok (.bgzf (eofField w) (nullField w))
  else if opField w = 0b11#2 then .ok (.gzip (eofField w) (nullField w))
  else .error .reservedOp

/-- The decoder on a word as the command table numbers its bits. A command is one 32-bit word written whole to `CMD`
(30_encoding R58, R61), so there are no bytes to order and no bit above bit 31. -/
def decodeTableWord (_nbits w : Nat) : Option Instr :=
  if w < 2 ^ 32 then
    match decode (BitVec.ofNat 32 w) with
    | .ok i => some i
    | .error _ => none
  else none

/-- The word with the given `OP`, `EOF` and `IN_NULL` fields and reserved bits zero (30_encoding R58):
the pattern `0000000000000000000000000000neoo`. -/
def commandWord (op : BitVec 2) (eof null : Bool) : Word :=
  0#28 ++ BitVec.ofBool null ++ BitVec.ofBool eof ++ op

/-- The command word of an operation (30_encoding R59). -/
def encode : Instr → Word
  | .block eof null => commandWord 0b01#2 eof null
  | .bgzf eof null => commandWord 0b10#2 eof null
  | .gzip eof null => commandWord 0b11#2 eof null

end Sys2Proof
end

