-- ==== Sys2Proof/Config.lean ====
section
/-! DEFINITION. What the platform fixes and what the spec leaves free: the parameters of 00_scope R9, each a field,
and the values the spec calls unspecified. Only the raw answers stand here; the contracts the spec puts on them are
applied in Machine/Ports.lean, which is what the machine calls. -/

namespace Sys2Proof

/-- The parameters of 00_scope R9 and the free values. Each function depends on its arguments alone (00_scope R10);
an answer that may differ from one request to the next takes the number of the draw as an argument. -/
structure Config where
  /-- `LEN_BITS` is 17 plus this: the parameter is any natural number of at least 17 (00_scope R9). -/
  lenBitsAbove17 : Nat
  /-- The compressor's raw answer to `DEFLATE(c, l, sp)`; `none` is `FAIL` (40_collaborator_ports R62). -/
  deflateAnswer : List Byte → Int → Nat → Option (List Byte)
  /-- The compressor's raw answer to `GZIPSTREAM(i, l, sp)`; `none` is `FAIL` (40_collaborator_ports R67). -/
  gzipAnswer : List Byte → Int → Nat → Option (List Byte)
  /-- `crc_init` (40_collaborator_ports R66). -/
  crcInit : Word
  /-- `crc_step` (40_collaborator_ports R66). -/
  crcStep : Word → Byte → Word
  /-- `crc_final` (40_collaborator_ports R66). -/
  crcFinal : Word → Word
  /-- The allocator's answer to the request of this draw number for this size, `true` for `GRANT`
  (40_collaborator_ports R68). -/
  allocAnswer : Nat → Nat → Bool
  /-- The free value a read of `OUT_LEN` or `ERR_OFFSET` gives while busy (93_implementation_defined U16). -/
  freeLength : Nat → Nat
  /-- The free byte a read of `OUT` gives, by draw and offset, where it is unspecified
  (93_implementation_defined U2, U3, U4). -/
  freeByte : Nat → Nat → Byte
deriving Inhabited

/-- `LEN_BITS`, the width of every length and offset register (00_scope R9). -/
def Config.lenBits (c : Config) : Nat := 17 + c.lenBitsAbove17

/-- The configuration of the hardware the model is of. It has no body: nothing is known of it, so a statement about
the machine holds for every configuration (logs 9 to 12). -/
opaque Config.hw : Config

end Sys2Proof
end

