-- ==== Sys2Proof/Machine/Format.lean ====
section
/-! DEFINITION. The wire format (30_encoding Part A): the constants of 00_scope R8, the packing functions of R13, the
fixed header bytes, the EOF marker and the framing function. -/

namespace Sys2Proof.Machine

/-- `CHUNK_MAX` (00_scope R8). -/
abbrev chunkMax : Nat := 65280

/-- `BLOCK_MAX` (00_scope R8). -/
abbrev blockMax : Nat := 65536

/-- `OVERHEAD` = `HDR_LEN` + `FTR_LEN` = 18 + 8 (00_scope R8). -/
abbrev overhead : Nat := 26

/-- `EOF_LEN` (00_scope R8). -/
abbrev eofLen : Nat := 28

/-- `GZIP_MARGIN` (00_scope R8). -/
abbrev gzipMargin : Nat := 26

/-- `LEVEL_DEFAULT` (00_scope R8). -/
abbrev levelDefault : Int := 9

/-- `le16(v)` (00_scope R13). -/
def le16 (v : Nat) : List Byte :=
  [BitVec.ofNat 8 (v % 256), BitVec.ofNat 8 (v / 256)]

/-- `le32(v)` (00_scope R13). -/
def le32 (v : Nat) : List Byte :=
  [BitVec.ofNat 8 (v % 256), BitVec.ofNat 8 (v / 2 ^ 8 % 256), BitVec.ofNat 8 (v / 2 ^ 16 % 256),
    BitVec.ofNat 8 (v / 2 ^ 24 % 256)]

/-- `sint32(w)` (00_scope R13). -/
def sint32 (w : Word) : Int :=
  if w.toNat < 2 ^ 31 then (w.toNat : Int) else (w.toNat : Int) - 2 ^ 32

/-- `HDR16`, the fixed header bytes (30_encoding R49). -/
def hdr16 : List Byte :=
  [0x1F, 0x8B, 0x08, 0x04, 0x00, 0x00, 0x00, 0x00, 0x00, 0xFF, 0x06, 0x00, 0x42, 0x43, 0x02, 0x00]

/-- `EOF_MARKER`, the literal 28-byte constant (30_encoding R54). -/
def eofMarker : List Byte :=
  [0x1F, 0x8B, 0x08, 0x04, 0x00, 0x00, 0x00, 0x00, 0x00, 0xFF, 0x06, 0x00, 0x42, 0x43, 0x02, 0x00,
    0x1B, 0x00, 0x03, 0x00, 0x00, 0x00, 0x00, 0x00, 0x00, 0x00, 0x00, 0x00]

/-- `frame(P, crc, isize)` (30_encoding R48): fixed header, `BSIZE`, payload, CRC32, `ISIZE`. -/
def frame (payload : List Byte) (crc : Word) (isize : Nat) : List Byte :=
  hdr16 ++ le16 (payload.length + 25) ++ payload ++ le32 crc.toNat ++ le32 (isize % 2 ^ 32)

end Sys2Proof.Machine
end

