-- ==== Sys2Proof/Machine/Ports.lean ====
section
/-! DEFINITION. The collaborator ports as the engine sees them (40_collaborator_ports): a raw answer of Config with the
port's contract applied. An answer outside the contract counts as `FAIL`, so the ports range over exactly the
functions that keep the contract (log 10). -/

namespace Sys2Proof

/-- A legal compression level: `LEVEL_MIN` to `LEVEL_MAX`, -1 to 9 (00_scope R8). -/
def levelLegal (l : Int) : Bool := decide (-1 ≤ l) && decide (l ≤ 9)

/-- `DEFLATE(c, l, sp)` (40_collaborator_ports R62): never empty, never more than `sp` bytes, `FAIL` on a level
outside [-1, 9]. -/
def Config.deflate (c : Config) (chunk : List Byte) (l : Int) (sp : Nat) : Option (List Byte) :=
  match c.deflateAnswer chunk l sp with
  | none => none
  | some p => if levelLegal l = true ∧ 1 ≤ p.length ∧ p.length ≤ sp then some p else none

/-- `GZIPSTREAM(i, l, sp)` (40_collaborator_ports R67): never empty, never more than `sp` bytes. -/
def Config.gzipStream (c : Config) (i : List Byte) (l : Int) (sp : Nat) : Option (List Byte) :=
  match c.gzipAnswer i l sp with
  | none => none
  | some g => if 1 ≤ g.length ∧ g.length ≤ sp then some g else none

/-- `CRC32(c)`, the accumulator run over the bytes in offset order (40_collaborator_ports R66). -/
def Config.crc32 (c : Config) (bytes : List Byte) : Word :=
  c.crcFinal (bytes.foldl c.crcStep c.crcInit)

/-- `ALLOC(n)` at the given draw: a free answer, but a size of 2^LEN_BITS or more is always denied
(40_collaborator_ports R68). -/
def Config.grants (c : Config) (draw n : Nat) : Bool :=
  decide (n < 2 ^ c.lenBits) && c.allocAnswer draw n

/-- The unspecified value a `LEN_BITS`-bit register reads as (93_implementation_defined U16). -/
def Config.freeRegister (c : Config) (draw : Nat) : Nat :=
  c.freeLength draw % 2 ^ c.lenBits

/-- One bit of the default CRC step (40_collaborator_ports R66):
`a <- (a >> 1) XOR (0xEDB88320 if a[0] = 1 else 0)`. -/
def gzipCrcBit (a : Word) : Word :=
  (a >>> 1) ^^^ (if a.getLsbD 0 then 0xEDB88320#32 else 0#32)

/-- The default `crc_step` (40_collaborator_ports R66): the byte into bits 7:0, then eight bits. -/
def gzipCrcStep (a : Word) (b : Byte) : Word :=
  gzipCrcBit (gzipCrcBit (gzipCrcBit (gzipCrcBit (gzipCrcBit (gzipCrcBit (gzipCrcBit (gzipCrcBit
    (a ^^^ b.setWidth 32))))))))

/-- The configuration with the default CRC parameters, the gzip CRC-32 (40_collaborator_ports R66;
93_implementation_defined G3, general knowledge: log 11). -/
def Config.withGzipCrc (c : Config) : Config :=
  { c with crcInit := 0xFFFFFFFF#32, crcStep := gzipCrcStep, crcFinal := fun a => a ^^^ 0xFFFFFFFF#32 }

/-- The premise a claim about a concrete CRC value names: the CRC parameters are the defaults
(92_eei_decisions D13). -/
def Config.UsesGzipCrc (c : Config) : Prop :=
  c.crcInit = 0xFFFFFFFF#32 ∧ (∀ a b, c.crcStep a b = gzipCrcStep a b) ∧
    ∀ a, c.crcFinal a = a ^^^ 0xFFFFFFFF#32

end Sys2Proof
end

