-- ==== Sys2Proof/Machine/Operands.lean ====
section
/-! DEFINITION. The operands of a running command (10_state R23, 30_encoding R61): read from the latches, never from
the host's registers. -/

namespace Sys2Proof.Machine

/-- `OP_L` = `CMD_L[1:0]` (10_state R23). -/
def State.opL (s : State) : BitVec 2 := opField s.cmdL

/-- `EOF_L` = `CMD_L[2]` (10_state R23). -/
def State.eofL (s : State) : Bool := eofField s.cmdL

/-- `NULL_L` = `CMD_L[3]` (10_state R23). -/
def State.nullL (s : State) : Bool := nullField s.cmdL

/-- `level` = `sint32(LVL_L)` (10_state R23, 30_encoding R61). -/
def State.levelL (s : State) : Int := sint32 s.lvlL

/-- `remaining` = `N_L - OFF`; no register of its own (10_state R25). -/
def State.remaining (s : State) : Nat := s.nL - s.off

/-- The size of the chunk in hand, `min(N_L - OFF, 65280)` (42_bgzf_encoder R83). -/
def State.chunkSize (s : State) : Nat := min s.remaining chunkMax

end Sys2Proof.Machine
end

