-- ==== Sys2Proof/Machine/Ops.lean ====
section
/-! DEFINITION. The named operations over memory and registers: reading and writing a byte memory, `append`, an
`ALLOC` draw, START, entering the failed state, and reset. -/

namespace Sys2Proof.Machine

/-- The byte at an offset, none where no cell lists it. -/
def Memory.read : Memory → Nat → Option Byte
  | [], _ => none
  | (x, b) :: m, a => if x = a then some b else Memory.read m a

/-- The memory that holds these bytes from an offset on and nothing else. -/
def Memory.ofBytes (a : Nat) : List Byte → Memory
  | [] => []
  | b :: bs => (a, b) :: Memory.ofBytes (a + 1) bs

/-- `OUT[a..a+|s|) <- s` (20_memory R34): the bytes at the offsets from `a` on, in order; every other offset keeps
what it held. -/
def Memory.write (m : Memory) (a : Nat) (bs : List Byte) : Memory :=
  m.filter (fun x => decide (x.1 < a)) ++ Memory.ofBytes a bs ++
    m.filter (fun x => decide (a + bs.length ≤ x.1))

/-- The first `n` cells as bytes, if they are at the offsets `a`, `a + 1`, and so on. -/
def Memory.sliceHere : Memory → Nat → Nat → Option (List Byte)
  | _, _, 0 => some []
  | [], _, _ + 1 => none
  | (x, b) :: m, a, n + 1 =>
    if x = a then
      match Memory.sliceHere m (a + 1) n with
      | some bs => some (b :: bs)
      | none => none
    else none

/-- `IN[a..a+n)` (20_memory R33): the bytes in offset order, none if one of the offsets holds no byte. -/
def Memory.slice (m : Memory) (a n : Nat) : Option (List Byte) :=
  Memory.sliceHere (m.dropWhile (fun x => decide (x.1 < a))) a n

/-- `append(s)` (00_scope R14, 20_memory R34). -/
def State.append (s : State) (bs : List Byte) : State :=
  { s with out := s.out.write s.outLen bs, outLen := s.outLen + bs.length }

/-- One free value has been drawn: an `ALLOC` answer or an unspecified read (log 9). -/
def State.drawn (s : State) : State := { s with draws := s.draws + 1 }

/-- Entering the failed state, `fail(e, off)` (60_exceptions R118): the one failure entry of every step. `OFF`, the
latches, the host's registers and the bytes of `OUT` keep their values. -/
def State.failWith (s : State) (e : ErrClass) (off : Nat) : State :=
  { s with
    err := e
    stage := s.seq.code
    errOffset := off
    outLen := 0
    outCap := 0
    seq := .fail }

/-- Whether the host has supplied what a START with the word `w` needs: `IN_LEN` readable bytes at offsets 0 to
`IN_LEN - 1`, and none when `IN_NULL` = 1 (70_reset_and_hazards R134 (a)). -/
def State.inputSupplied (s : State) (w : Word) : Bool :=
  nullField w || (s.input.slice 0 s.inLen).isSome

/-- START with the word `w` (44_host_commands R103, R104), which is also how the failed state is left
(60_exceptions R120). `OUT` becomes empty: its old bytes are unspecified from here on and are dropped (log 8). -/
def State.start (s : State) (w : Word) : State :=
  { s with
    cmdL := w
    lvlL := s.level
    nL := s.inLen
    capL := s.cap
    off := 0
    outLen := 0
    outCap := 0
    out := []
    err := .none
    stage := 0#3
    errOffset := 0
    seq := .validate }

/-- The reset input (70_reset_and_hazards R131): every register to its reset value, `IN` untouched. The model's own
fields are not registers and stay. -/
def State.hardwareReset (s : State) : State :=
  { State.reset with
    input := s.input
    hostTodo := s.hostTodo
    hostSaw := s.hostSaw
    draws := s.draws }

end Sys2Proof.Machine
end

