-- ==== Sys2Proof/Machine/Block.lean ====
section
/-! DEFINITION. The Block Compressor (41_block_compressor): the function `compress_block`, the step of `S_BLOCK`, and
the meaning of `BLOCK`. -/

namespace Sys2Proof.Machine

/-- `compress_block(c, l, cap)` (41_block_compressor R72); `none` is `FAIL`. The subtraction stops at zero, which is
`max(cap - 26, 0)`. The last line is `frame(r, CRC32(c), |c|)`. -/
def compressBlock (c : Config) (chunk : List Byte) (l : Int) (cap : Nat) : Option (List Byte) :=
  if chunk.length = 0 then
    if cap < eofLen then none else some eofMarker
  else
    match c.deflate chunk l (cap - overhead) with
    | none => none
    | some p => some (frame p (c.crc32 chunk) chunk.length)

/-- The registers `compress_block` writes on its way (41_block_compressor R72): `ISIZE_R` always; `PLEN`, `BLEN` and
`CRC_ACC` when a block is made in the general case (10_state R26, R27). No rule reads them in a later step (log 5). -/
def State.blockTemporaries (s : State) (c : Config) (chunk : List Byte) (l : Int) (cap : Nat) : State :=
  if chunk.length = 0 then { s with isizeR := 0#17 }
  else
    match compressBlock c chunk l cap with
    | none => { s with isizeR := BitVec.ofNat 17 chunk.length }
    | some b =>
      { s with
        isizeR := BitVec.ofNat 17 chunk.length
        plen := BitVec.ofNat 17 (b.length - overhead)
        blen := BitVec.ofNat 17 b.length
        crcAcc := c.crc32 chunk }

/-- The checks of `S_VALIDATE` that apply to a `BLOCK` word (44_host_commands R105; 41_block_compressor R80), then the
dispatch. `BLOCK` has no level test (41_block_compressor R78). -/
def State.validateBlock (s : State) (null : Bool) : State :=
  if null then s.failWith .invalidArgument 0
  else if s.nL > chunkMax ∨ s.capL > blockMax then s.failWith .invalidArgument 0
  else { s with seq := .block }

/-- The step of `S_BLOCK` (41_block_compressor R77). The space is the host's: no `ALLOC` request.

DESIGN CHOICE, unsafe (log 25): the step takes the host's destination behind `OUT` to hold all of `CAP_L` bytes, the
host's duty 70_reset_and_hazards R134 (d). The spec does not say what the command does over a shorter one. -/
def stepBlock (c : Config) (s : State) : Host.Outcome State Fault Refusal :=
  match s.input.slice 0 s.nL with
  | none => .refused .inputNotSupplied
  | some chunk =>
    let s' := ({ s with outCap := s.capL } : State).blockTemporaries c chunk s.levelL s.capL
    match compressBlock c chunk s.levelL s.capL with
    | none => .next (s'.failWith .compressFailed 0)
    | some b => .next { s'.append b with seq := .done }

/-- One step of a `BLOCK` command under a configuration (41_block_compressor R71). The `EOF` bit is ignored. -/
def execBlockWith (c : Config) (_eof null : Bool) (s : State) : Host.Outcome State Fault Refusal :=
  match s.seq with
  | .validate => .next (s.validateBlock null)
  | .block => stepBlock c s
  | .idle => .fault .noRuleInState
  | .chunk => .fault .noRuleInState
  | .eof => .fault .noRuleInState
  | .gzip => .fault .noRuleInState
  | .done => .fault .noRuleInState
  | .fail => .fault .noRuleInState

/-- The meaning of `BLOCK`: one step of the command in hand (41_block_compressor R71). -/
def execBlock (eof null : Bool) (s : State) : Host.Outcome State Fault Refusal :=
  execBlockWith Config.hw eof null s

end Sys2Proof.Machine
end

