-- ==== Sys2Proof/Machine/Bgzf.lean ====
section
/-! DEFINITION. The BGZF Encoder, the chunking sequencer (42_bgzf_encoder): the steps of `S_CHUNK` and `S_EOF`, and the
meaning of `BGZF`. -/

namespace Sys2Proof.Machine

/-- The checks of `S_VALIDATE` that apply to a `BGZF` word (44_host_commands R105; 42_bgzf_encoder R82), then the
dispatch. -/
def State.validateBgzf (s : State) (null : Bool) : State :=
  if null then s.failWith .invalidArgument 0
  else if levelLegal s.levelL then { s with seq := .chunk }
  else s.failWith .invalidArgument 0

/-- The step of `S_CHUNK` (42_bgzf_encoder R84 to R86): with input left, one chunk from grow request to append; with
none left, on to `S_EOF`. -/
def stepChunk (c : Config) (s : State) : Host.Outcome State Fault Refusal :=
  if s.remaining = 0 then .next { s with seq := .eof }
  else if c.grants s.draws (s.outLen + blockMax) then
    match s.input.slice s.off s.chunkSize with
    | none => .refused .inputNotSupplied
    | some chunk =>
      let s' := ({ s.drawn with outCap := s.outLen + blockMax } : State).blockTemporaries c chunk s.levelL blockMax
      match compressBlock c chunk s.levelL blockMax with
      | none => .next (s'.failWith .compressFailed s.off)
      | some b => .next { s'.append b with off := s.off + s.chunkSize, seq := .chunk }
  else .next (s.drawn.failWith .resourceExhausted s.off)

/-- The step of `S_EOF` (42_bgzf_encoder R88); `eof` is `EOF_L`. -/
def stepEof (c : Config) (eof : Bool) (s : State) : Host.Outcome State Fault Refusal :=
  if eof then
    if c.grants s.draws (s.outLen + eofLen) then
      .next { ({ s.drawn with outCap := s.outLen + eofLen } : State).append eofMarker with seq := .done }
    else .next (s.drawn.failWith .resourceExhausted s.off)
  else .next { s with seq := .done }

/-- One step of a `BGZF` command under a configuration (42_bgzf_encoder R81). -/
def execBgzfWith (c : Config) (eof null : Bool) (s : State) : Host.Outcome State Fault Refusal :=
  match s.seq with
  | .validate => .next (s.validateBgzf null)
  | .chunk => stepChunk c s
  | .eof => stepEof c eof s
  | .idle => .fault .noRuleInState
  | .block => .fault .noRuleInState
  | .gzip => .fault .noRuleInState
  | .done => .fault .noRuleInState
  | .fail => .fault .noRuleInState

/-- The meaning of `BGZF`: one step of the command in hand (42_bgzf_encoder R81). -/
def execBgzf (eof null : Bool) (s : State) : Host.Outcome State Fault Refusal :=
  execBgzfWith Config.hw eof null s

end Sys2Proof.Machine
end

