-- ==== Sys2Proof/Machine/Gzip.lean ====
section
/-! DEFINITION. The Plain Gzip Encoder (43_gzip_encoder): the step of `S_GZIP` and the meaning of `GZIP`. -/

namespace Sys2Proof.Machine

/-- The checks of `S_VALIDATE` that apply to a `GZIP` word (44_host_commands R105; 43_gzip_encoder R95), then the
dispatch. -/
def State.validateGzip (s : State) (null : Bool) : State :=
  if null then s.failWith .invalidArgument 0
  else if levelLegal s.levelL then { s with seq := .gzip }
  else s.failWith .invalidArgument 0

/-- The step of `S_GZIP` (43_gzip_encoder R96, R97): one request, one call on the whole input. -/
def stepGzip (c : Config) (s : State) : Host.Outcome State Fault Refusal :=
  if c.grants s.draws (s.nL + gzipMargin) then
    match s.input.slice 0 s.nL with
    | none => .refused .inputNotSupplied
    | some i =>
      match c.gzipStream i s.levelL (s.nL + gzipMargin) with
      | none => .next (s.drawn.failWith .compressFailed 0)
      | some g => .next { ({ s.drawn with outCap := s.nL + gzipMargin } : State).append g with seq := .done }
  else .next (s.drawn.failWith .resourceExhausted 0)

/-- One step of a `GZIP` command under a configuration (43_gzip_encoder R94). The `EOF` bit is ignored. -/
def execGzipWith (c : Config) (_eof null : Bool) (s : State) : Host.Outcome State Fault Refusal :=
  match s.seq with
  | .validate => .next (s.validateGzip null)
  | .gzip => stepGzip c s
  | .idle => .fault .noRuleInState
  | .chunk => .fault .noRuleInState
  | .eof => .fault .noRuleInState
  | .block => .fault .noRuleInState
  | .done => .fault .noRuleInState
  | .fail => .fault .noRuleInState

/-- The meaning of `GZIP`: one step of the command in hand (43_gzip_encoder R94). -/
def execGzip (eof null : Bool) (s : State) : Host.Outcome State Fault Refusal :=
  execGzipWith Config.hw eof null s

end Sys2Proof.Machine
end

