-- ==== Sys2Proof/Machine/Dispatch.lean ====
section
/-! DEFINITION. One arm per operation: `exec i s` is one step of the command `i` in the state `s`. -/

namespace Sys2Proof.Machine

def exec (i : Instr) (s : State) : Host.Outcome State Fault Refusal :=
  match i with
  | .block eof null => Sys2Proof.Machine.execBlock eof null s
  | .bgzf eof null => Sys2Proof.Machine.execBgzf eof null s
  | .gzip eof null => Sys2Proof.Machine.execGzip eof null s

end Sys2Proof.Machine
end

