-- ==== Sys2Proof/Machine/HostActions.lean ====
section
/-! DEFINITION. What the host does (44_host_commands; 70_reset_and_hazards R131, R136): register reads and writes, START
by the doorbell, filling `IN`, reading `OUT`, taking a result, reset; the textual lines of R109 and the two
pseudo-commands of R107 and R108. -/

namespace Sys2Proof.Machine

/-- A read of `OUT_LEN` or `ERR_OFFSET` while busy is unspecified (44_host_commands R100). -/
def State.readUnspecified (s : State) (index : Nat) : Bool :=
  s.busy && (index == 5 || index == 6)

/-- The number a register read returns (44_host_commands R100). -/
def State.registerValue (s : State) (c : Config) (index : Nat) : Nat :=
  if s.readUnspecified index then c.freeRegister s.draws
  else
    match index with
    | 0 => s.cmdL.toNat
    | 1 => s.level.toNat
    | 2 => s.inLen
    | 3 => s.cap
    | 4 => s.status.toNat
    | 5 => s.outLen
    | 6 => s.errOffset
    | _ => 0

/-- A register read changes nothing of the engine (44_host_commands R100); the model notes what the host read. -/
def hostRead (c : Config) (index : Nat) (s : State) : State :=
  { s with
    hostSaw := .register index (s.registerValue c index) :: s.hostSaw
    draws := if s.readUnspecified index then s.draws + 1 else s.draws }

/-- The doorbell (44_host_commands R102, R103): dropped while busy, START otherwise. A START without the input it
announces gives the whole command no meaning and is refused (70_reset_and_hazards R134; 93_implementation_defined U13;
log 7). -/
def hostDoorbell (w : Word) (s : State) : Host.Outcome State Fault Refusal :=
  if s.busy then .next s
  else if s.inputSupplied w then .next (s.start w)
  else .refused .inputNotSupplied

/-- A register write (44_host_commands R101 to R103): index 0 is the doorbell; 1, 2 and 3 take the value at any time;
every other index ignores it. -/
def hostWrite (c : Config) (index value : Nat) (s : State) : Host.Outcome State Fault Refusal :=
  match index with
  | 0 =>
    if value < 2 ^ 32 then hostDoorbell (BitVec.ofNat 32 value) s else .refused .valueDoesNotFit
  | 1 =>
    if value < 2 ^ 32 then .next { s with level := BitVec.ofNat 32 value } else .refused .valueDoesNotFit
  | 2 => if value < 2 ^ c.lenBits then .next { s with inLen := value } else .refused .valueDoesNotFit
  | 3 => if value < 2 ^ c.lenBits then .next { s with cap := value } else .refused .valueDoesNotFit
  | _ => .next s

/-- The host makes `IN` hold these bytes (44_host_commands R109). While a command runs it must not
(70_reset_and_hazards R135), and such a run has no meaning (93_implementation_defined U1). -/
def hostInput (bytes : List Byte) (s : State) : Host.Outcome State Fault Refusal :=
  if s.busy then .refused .inputChangedWhileBusy else .next { s with input := Memory.ofBytes 0 bytes }

/-- The byte of `OUT` a host read gives at an offset: the stored byte in `S_DONE` below `OUT_LEN`, any value elsewhere
(70_reset_and_hazards R136). -/
def State.outByte (s : State) (c : Config) (a : Nat) : Byte :=
  if s.seq = .done ∧ a < s.outLen then (s.out.read a).getD (c.freeByte s.draws a) else c.freeByte s.draws a

/-- The host reads bytes of `OUT`; the model notes what it read. -/
def hostReadOut (c : Config) (offset count : Nat) (s : State) : State :=
  { s.drawn with
    hostSaw := .outBytes offset ((List.range' offset count).map (s.outByte c)) :: s.hostSaw }

/-- How the host takes a result (44_host_commands R110): in `S_DONE` the bytes `OUT[0..OUT_LEN)`, in `S_FAIL` the
diagnostic; in any other state there is nothing to take (log 19). -/
def hostTakeResult (c : Config) (s : State) : State :=
  match s.seq with
  | .done => { s.drawn with hostSaw := .result ((List.range' 0 s.outLen).map (s.outByte c)) :: s.hostSaw }
  | .fail => { s with hostSaw := .diagnostic s.err s.stage s.errOffset :: s.hostSaw }
  | .idle => s
  | .validate => s
  | .chunk => s
  | .eof => s
  | .block => s
  | .gzip => s

/-- `wr LEVEL, <integer>`: the register write that carries an integer as 32-bit two's complement (44_host_commands
R109). For an integer that does not fit 32 bits R109 is silent: DESIGN CHOICE, the low 32 bits of its two's complement
are written (log 24). -/
def HostLine.wrLevel (l : Int) : HostLine := .write 1 (BitVec.ofInt 32 l).toNat

/-- `wr IN_LEN, n` (44_host_commands R109). -/
def HostLine.wrInLen (n : Nat) : HostLine := .write 2 n

/-- `wr CAP, n` (44_host_commands R109). -/
def HostLine.wrCap (n : Nat) : HostLine := .write 3 n

/-- `cmd w`: any 32-bit word (44_host_commands R109). -/
def HostLine.cmd (w : Word) : HostLine := .write 0 w.toNat

/-- `block [null]` (44_host_commands R109). -/
def HostLine.block (null : Bool) : HostLine := .cmd (encode (.block false null))

/-- `bgzf [eof] [null]` (44_host_commands R109). -/
def HostLine.bgzf (eof null : Bool) : HostLine := .cmd (encode (.bgzf eof null))

/-- `gzip [null]` (44_host_commands R109). -/
def HostLine.gzip (null : Bool) : HostLine := .cmd (encode (.gzip false null))

/-- A level that does not fit 32 bits cannot be written (44_host_commands R107). -/
def levelFits (l : Int) : Bool := decide (-2 ^ 31 ≤ l) && decide (l < 2 ^ 31)

/-- The pseudo-command `compress` (44_host_commands R107) as host lines; null content is `none`. The answer is `none`
where the adapter itself rejects: a level that does not fit 32 bits. -/
def compressLines (content : Option (List Byte)) (level : Int := levelDefault) (eof : Bool := false) :
    Option (List HostLine) :=
  match content with
  | none => some [.bgzf false true, .wait, .takeResult]
  | some bytes =>
    if levelFits level then
      some [.input bytes, .wrInLen bytes.length, .wrLevel level, .bgzf eof false, .wait, .takeResult]
    else none

/-- The pseudo-command `gzip_compress` (44_host_commands R108) as host lines. -/
def gzipCompressLines (content : Option (List Byte)) (level : Int := levelDefault) : Option (List HostLine) :=
  match content with
  | none => some [.gzip true, .wait, .takeResult]
  | some bytes =>
    if levelFits level then
      some [.input bytes, .wrInLen bytes.length, .wrLevel level, .gzip false, .wait, .takeResult]
    else none

end Sys2Proof.Machine
end

