-- ==== Sys2Proof/Machine/Turn.lean ====
section
/-! DEFINITION. One step of the whole machine, given the meaning of each operation: which agent moves next, and what a
step of the engine is (10_state R25). -/

namespace Sys2Proof.Machine

/-- The step of a command whose word names no operation: validation fails (30_encoding R60, 44_host_commands R105).
No rule lets such a command enter another state. -/
def rejectReserved (s : State) : Host.Outcome State Fault Refusal :=
  match s.seq with
  | .validate => .next (s.failWith .invalidArgument 0)
  | .idle => .fault .noRuleInState
  | .chunk => .fault .noRuleInState
  | .eof => .fault .noRuleInState
  | .block => .fault .noRuleInState
  | .gzip => .fault .noRuleInState
  | .done => .fault .noRuleInState
  | .fail => .fault .noRuleInState

/-- The engine's turn. While `BUSY` = 1 it runs the operation that the latched word names; otherwise it has no step
and waits for the host (10_state R25, 60_exceptions R129; log 2). -/
def engineTurn (run : Instr → State → Host.Outcome State Fault Refusal) (s : State) :
    Host.Outcome State Fault Refusal :=
  if s.busy then
    match decode s.cmdL with
    | .ok i => run i s
    | .error _ => rejectReserved s
  else .next s

/-- One turn of the machine. The host's pending lines come first, one a turn, between steps of the engine; `wait`
holds while the engine is busy, `pass` lets one engine step go by, and with no line pending the engine has the turn
(log 1). -/
def turn (c : Config) (run : Instr → State → Host.Outcome State Fault Refusal) (s : State) :
    Host.Outcome State Fault Refusal :=
  match s.hostTodo with
  | [] => engineTurn run s
  | .wait :: rest => if s.busy then engineTurn run s else .next { s with hostTodo := rest }
  | .pass :: rest => engineTurn run { s with hostTodo := rest }
  | .input bytes :: rest => hostInput bytes { s with hostTodo := rest }
  | .write index value :: rest => hostWrite c index value { s with hostTodo := rest }
  | .read index :: rest => .next (hostRead c index { s with hostTodo := rest })
  | .readOut offset count :: rest => .next (hostReadOut c offset count { s with hostTodo := rest })
  | .takeResult :: rest => .next (hostTakeResult c { s with hostTodo := rest })
  | .reset :: rest => .next ({ s with hostTodo := rest } : State).hardwareReset

end Sys2Proof.Machine
end

