-- ==== Sys2Proof/Machine/Step.lean ====
section
/-! DEFINITION. One step of the machine, and how an operation is placed so that the next step runs it. -/

namespace Sys2Proof.Machine

/-- One step: the next pending action of the host, or one step of the engine (10_state R25). -/
def step (s : State) : Host.Outcome State Fault Refusal :=
  turn Config.hw exec s

/-- The state in which the command word `w` has just been started, with no host action pending, so that the next step
is the command's own first step. The engine fetches nothing (20_memory R43): a command comes to run by START, and this
is START (log 17). -/
def State.withFetchWord (s : State) (_nbits w : Nat) : State :=
  { s.start (BitVec.ofNat 32 w) with hostTodo := [] }

end Sys2Proof.Machine
end

