-- ==== Sys2Proof/Machine/Configured.lean ====
section
/-! DEFINITION. The same machine under any given configuration (00_scope R9: a model takes each parameter as an
argument). `exec` and `step` are the instances at `Config.hw`; claims about collaborator answers, and tests, use these. -/

namespace Sys2Proof.Machine

/-- `exec` under a configuration. -/
def execWith (c : Config) (i : Instr) (s : State) : Host.Outcome State Fault Refusal :=
  match i with
  | .block eof null => execBlockWith c eof null s
  | .bgzf eof null => execBgzfWith c eof null s
  | .gzip eof null => execGzipWith c eof null s

/-- `step` under a configuration. -/
def stepWith (c : Config) (s : State) : Host.Outcome State Fault Refusal :=
  turn c (execWith c) s

/-- `core` under a configuration. -/
def coreWith (c : Config) : Host.Core :=
  { State := State, Fault := Fault, Refusal := Refusal, step := stepWith c, reset := State.reset }

end Sys2Proof.Machine
end

