-- ==== Sys2Proof/WellFormed.lean ====
section
/-! DEFINITION. Which terms are well formed: operations, command words and host lines. -/

namespace Sys2Proof

/-- Every operation term is well formed: both flag bits are legal with either value in every operation
(30_encoding R60, R61). -/
def Instr.wellFormed : Instr → Bool
  | .block _ _ => true
  | .bgzf _ _ => true
  | .gzip _ _ => true

/-- A command word that names an operation: bits 31:4 zero and `OP` not 00 (30_encoding R60). -/
def commandWordWellFormed (w : Word) : Bool :=
  reservedField w == 0#28 && opField w != 0#2

/-- A host line is well formed when a number it writes fits the register it writes (10_state R16 to R19: `CMD` and
`LEVEL` 32 bits, `IN_LEN` and `CAP` LEN_BITS bits); writes to other indices are ignored, whatever the number
(44_host_commands R101). -/
def Machine.HostLine.wellFormed (c : Config) : Machine.HostLine → Bool
  | .write 0 v => decide (v < 2 ^ 32)
  | .write 1 v => decide (v < 2 ^ 32)
  | .write 2 v => decide (v < 2 ^ c.lenBits)
  | .write 3 v => decide (v < 2 ^ c.lenBits)
  | .write _ _ => true
  | .input _ => true
  | .read _ => true
  | .readOut _ _ => true
  | .takeResult => true
  | .wait => true
  | .pass => true
  | .reset => true

end Sys2Proof
end

