-- ==== Sys2Proof/Safety.lean ====
section
/-! DEFINITION. The terms claims are stated in: the invariant of the machine, the record a failure leaves, what of a
state is architectural between steps, a freshly started command, the functions the spec says whole commands compute,
and the named premises on the collaborators. Nothing here is run by the machine. -/

namespace Sys2Proof.Machine

/-- The failed state with a given class, stage and offset, as 60_exceptions R118 lists its effects. The stage is a
number here, so that a claim says which step failed. -/
def State.failedAt (s : State) (e : ErrClass) (stage : BitVec 3) (off : Nat) : State :=
  { s with err := e, stage := stage, errOffset := off, outLen := 0, outCap := 0, seq := .fail }

/-- The state without the four datapath temporaries, whose values between steps are unspecified and not observable
(10_state R26, R27; log 5): claims compare states through this. -/
def State.forgetTemporaries (s : State) : State :=
  { s with isizeR := 0#17, plen := 0#17, blen := 0#17, crcAcc := 0#32 }

/-- The state without the temporaries and without the model's record of what the host has read: what a command can
depend on or change. -/
def State.commandView (s : State) : State :=
  { s.forgetTemporaries with hostSaw := [] }

/-- Two outcomes are the same up to a view of the next state. -/
def sameOutcome (view : State → State) :
    Host.Outcome State Fault Refusal → Host.Outcome State Fault Refusal → Prop
  | .next s, .next t => view s = view t
  | .fault a, .fault b => a = b
  | .refused a, .refused b => a = b
  | .next _, .fault _ => False
  | .next _, .refused _ => False
  | .fault _, .next _ => False
  | .fault _, .refused _ => False
  | .refused _, .next _ => False
  | .refused _, .fault _ => False

/-- The records `S_FAIL` can hold: class, stage (60_exceptions R112 to R115). -/
def failureRecords : List (ErrClass × BitVec 3) :=
  [(.invalidArgument, 1#3), (.compressFailed, 2#3), (.resourceExhausted, 2#3), (.resourceExhausted, 3#3),
    (.compressFailed, 4#3), (.compressFailed, 5#3), (.resourceExhausted, 5#3)]

/-- Every length and offset register fits `LEN_BITS` bits (10_state R15). -/
structure State.WidthsFit (c : Config) (s : State) : Prop where
  inLen : s.inLen < 2 ^ c.lenBits
  cap : s.cap < 2 ^ c.lenBits
  nL : s.nL < 2 ^ c.lenBits
  capL : s.capL < 2 ^ c.lenBits
  off : s.off < 2 ^ c.lenBits
  outLen : s.outLen < 2 ^ c.lenBits
  outCap : s.outCap < 2 ^ c.lenBits
  errOffset : s.errOffset < 2 ^ c.lenBits

/-- The invariant of the machine. -/
structure State.Inv (c : Config) (s : State) : Prop where
  /-- The registers fit their widths (10_state R15). -/
  widths : s.WidthsFit c
  /-- `IN` is in canonical form. -/
  inputWf : s.input.wf
  /-- A running command has its whole input, unless it announced none (70_reset_and_hazards R134, R135). -/
  supplied : s.busy = true → s.nullL = false → (s.input.slice 0 s.nL).isSome = true
  /-- `OUT` is in canonical form. -/
  outWf : s.out.wf
  /-- `OFF ≤ N_L` (10_state R25). -/
  offLe : s.off ≤ s.nL
  /-- `OUT_LEN ≤ OUT_CAP` (10_state R28). -/
  outLenLe : s.outLen ≤ s.outCap
  /-- The bytes of `OUT` below `OUT_LEN` are there, and none beyond, unless a failure discarded them
  (10_state R31, 60_exceptions R118). -/
  outListed : s.seq ≠ .fail → ∀ a, (s.out.read a).isSome = true ↔ a < s.outLen
  /-- `ERR`, `STAGE` and `ERR_OFFSET` are 0 unless `STATE` is `S_FAIL` (10_state R20, R22). -/
  noRecord : s.seq ≠ .fail → s.err = .none ∧ s.stage = 0#3 ∧ s.errOffset = 0
  /-- In `S_FAIL` there is no output, and the record is one of those a step writes (60_exceptions R112 to R118). -/
  record : s.seq = .fail → s.outLen = 0 ∧ s.outCap = 0 ∧ (s.err, s.stage) ∈ failureRecords
  /-- The recorded offset is 0, the start of a chunk, or the end of the input (60_exceptions R116). -/
  recordOffset : s.errOffset % chunkMax = 0 ∨ s.errOffset = s.nL
  /-- Nothing has been cut or appended before validation, `S_BLOCK` and `S_GZIP` (44_host_commands R103). -/
  fresh : s.seq = .validate ∨ s.seq = .block ∨ s.seq = .gzip → s.off = 0 ∧ s.outLen = 0
  /-- `S_BLOCK` is entered only by `BLOCK`, with operands in its domain (41_block_compressor R77, R80). -/
  inBlock : s.seq = .block → (∃ eof, decode s.cmdL = .ok (.block eof false)) ∧ s.nL ≤ chunkMax ∧ s.capL ≤ blockMax
  /-- `S_CHUNK` and `S_EOF` are entered only by `BGZF`, with a legal level (42_bgzf_encoder R82). -/
  inBgzf : s.seq = .chunk ∨ s.seq = .eof →
    (∃ eof, decode s.cmdL = .ok (.bgzf eof false)) ∧ levelLegal s.levelL = true
  /-- `S_GZIP` is entered only by `GZIP`, with a legal level (43_gzip_encoder R95). -/
  inGzip : s.seq = .gzip → (∃ eof, decode s.cmdL = .ok (.gzip eof false)) ∧ levelLegal s.levelL = true
  /-- Chunks start at multiples of 65280 (42_bgzf_encoder R83), until all input is consumed. -/
  chunkStart : s.seq = .chunk → s.off % chunkMax = 0 ∨ s.off = s.nL
  /-- In `S_EOF` all input is consumed (42_bgzf_encoder R88). -/
  allConsumed : s.seq = .eof → s.off = s.nL

/-- A command just started (44_host_commands R103) with the bytes `S` supplied as its input
(70_reset_and_hazards R134), and no host action pending: the command then runs by itself. -/
structure State.StartedWith (s : State) (i : Instr) (S : List Byte) : Prop where
  seq : s.seq = .validate
  word : s.cmdL = encode i
  length : s.nL = S.length
  input : s.input.slice 0 S.length = some S
  off : s.off = 0
  outLen : s.outLen = 0
  outCap : s.outCap = 0
  out : s.out = []
  err : s.err = .none
  stage : s.stage = 0#3
  errOffset : s.errOffset = 0
  hostTodo : s.hostTodo = []

/-- The result of a successful command: `S_DONE` with exactly these bytes in `OUT[0..OUT_LEN)`, no error recorded. -/
structure State.DoneWith (s : State) (bytes : List Byte) : Prop where
  seq : s.seq = .done
  outLen : s.outLen = bytes.length
  out : s.out.slice 0 s.outLen = some bytes
  err : s.err = .none
  stage : s.stage = 0#3
  errOffset : s.errOffset = 0

/-- The result of a failed command: `S_FAIL` with this record and no output (60_exceptions R118). -/
structure State.FailedWith (s : State) (e : ErrClass) (stage : BitVec 3) (off : Nat) : Prop where
  seq : s.seq = .fail
  err : s.err = e
  stage : s.stage = stage
  errOffset : s.errOffset = off
  outLen : s.outLen = 0
  outCap : s.outCap = 0

/-- `K`, the number of chunks of an input of length `n`: `ceil(n / 65280)` (42_bgzf_encoder R91). -/
def chunkCount (n : Nat) : Nat := (n + 65279) / 65280

/-- Chunk `k` of the input (42_bgzf_encoder R90). -/
def chunkAt (S : List Byte) (k : Nat) : List Byte := (S.drop (65280 * k)).take 65280

/-- The chunks of an input in order (42_bgzf_encoder R90). -/
def chunks (S : List Byte) : List (List Byte) := (List.range (chunkCount S.length)).map (chunkAt S)

/-- The blocks of these chunks one after the other, or the number of the first chunk that fails, counting from `k`
(42_bgzf_encoder R90). -/
def encodeChunks (c : Config) (l : Int) : Nat → List (List Byte) → Except Nat (List Byte)
  | _, [] => .ok []
  | k, chunk :: rest =>
    match compressBlock c chunk l 65536 with
    | none => .error k
    | some b =>
      match encodeChunks c l (k + 1) rest with
      | .error j => .error j
      | .ok bs => .ok (b ++ bs)

/-- `bgzf_encode(S, l, e)` (42_bgzf_encoder R90); a failure carries its class and offset. -/
def bgzfEncode (c : Config) (S : List Byte) (l : Int) (e : Bool) : Except (ErrClass × Nat) (List Byte) :=
  if levelLegal l then
    match encodeChunks c l 0 (chunks S) with
    | .error k => .error (.compressFailed, 65280 * k)
    | .ok bs => .ok (bs ++ if e then eofMarker else [])
  else .error (.invalidArgument, 0)

/-- `gzip_encode(S, l)` (43_gzip_encoder R98). -/
def gzipEncode (c : Config) (S : List Byte) (l : Int) : Except ErrClass (List Byte) :=
  if levelLegal l then
    match c.gzipStream S l (S.length + 26) with
    | none => .error .compressFailed
    | some g => .ok g
  else .error .invalidArgument

/-- A reader of a sequence of blocks, as 30_encoding R50 and R79 describe one: it finds the next block at the current
block's offset plus `BSIZE + 1`, checks the fixed header bytes, decodes the payload with `inflate`, which answers the
decoded bytes and how many payload bytes it took and must have taken all of them, and checks the footer. The number
bounds how many blocks it reads. It is a term of claims; the engine has no decoder (00_scope R6). -/
def readBlocks (inflate : List Byte → Option (List Byte × Nat)) (crc : List Byte → Word) :
    Nat → List Byte → Option (List Byte)
  | _, [] => some []
  | 0, _ :: _ => none
  | n + 1, b :: bs =>
    let all := b :: bs
    let blen := (all.getD 16 0).toNat + 256 * (all.getD 17 0).toNat + 1
    if all.take 16 = hdr16 ∧ 27 ≤ blen ∧ blen ≤ all.length then
      match inflate ((all.drop 18).take (blen - 26)) with
      | none => none
      | some (chunk, taken) =>
        if taken = blen - 26
            ∧ (all.drop (blen - 8)).take 4 = le32 (crc chunk).toNat
            ∧ (all.drop (blen - 4)).take 4 = le32 (chunk.length % 2 ^ 32) then
          match readBlocks inflate crc n (all.drop blen) with
          | none => none
          | some rest => some (chunk ++ rest)
        else none
    else none

end Sys2Proof.Machine

namespace Sys2Proof

/-- Every `ALLOC` request from a draw number on is granted, but for sizes that fit no register: the premise of
40_collaborator_ports R68. -/
def Config.GrantsFrom (c : Config) (draw : Nat) : Prop :=
  ∀ k n, n < 2 ^ c.lenBits → c.grants (draw + k) n = true

/-- `DEFLATE_SOUND` (40_collaborator_ports R65): the decoder `inflate`, which answers the decoded bytes and where in its
input it stopped, applied to a payload gives back exactly the chunk and stops at the payload's end. -/
def Config.DeflateSound (c : Config) (inflate : List Byte → Option (List Byte × Nat)) : Prop :=
  ∀ chunk l sp p, c.deflate chunk l sp = some p → inflate p = some (chunk, p.length)

/-- `DEFLATE_FITS` (40_collaborator_ports R65): no chunk of 1 to 65280 bytes fails at a legal level. -/
def Config.DeflateFits (c : Config) : Prop :=
  ∀ chunk l, 1 ≤ chunk.length → chunk.length ≤ 65280 → levelLegal l = true → c.deflate chunk l 65510 ≠ none

/-- `GZIP_SOUND` (40_collaborator_ports R67): the decoder `gunzip` gives back exactly the input. -/
def Config.GzipSound (c : Config) (gunzip : List Byte → Option (List Byte)) : Prop :=
  ∀ i l sp g, c.gzipStream i l sp = some g → gunzip g = some i

end Sys2Proof
end

