-- ==== Sys2Proof/Certificates/Slice0/Obligations.lean ====
section
/-! DEFINITION. The statements for the provers. Each says in its docstring which rule of the spec it formalises. States
are compared through `forgetTemporaries` where a step writes the datapath temporaries, whose values between steps are
unspecified (10_state R26, R27). Where a statement names `draws`, it is the model's own count of free values. -/

open Sys2Proof Sys2Proof.Machine

/-! ### Encodings -/

/-- 30_encoding R58, R59: each legal command word, written out, names its operation with its two flag bits
(95_test_vectors 2.8). -/
def Obligations.CommandWordsDecodeAsTabled : Prop :=
  decode 0b00000000000000000000000000000001#32 = .ok (.block false false) ∧
  decode 0b00000000000000000000000000000101#32 = .ok (.block true false) ∧
  decode 0b00000000000000000000000000001001#32 = .ok (.block false true) ∧
  decode 0b00000000000000000000000000000010#32 = .ok (.bgzf false false) ∧
  decode 0b00000000000000000000000000000110#32 = .ok (.bgzf true false) ∧
  decode 0b00000000000000000000000000001110#32 = .ok (.bgzf true true) ∧
  decode 0b00000000000000000000000000000011#32 = .ok (.gzip false false) ∧
  decode 0b00000000000000000000000000001011#32 = .ok (.gzip false true)

/-- 30_encoding R58, R59: decoding the word of a well-formed operation gives the operation back. -/
def Obligations.EncodeThenDecodeReturnsOperation : Prop :=
  ∀ i : Instr, i.wellFormed = true → decode (encode i) = .ok i

/-- 30_encoding R58, R59: a word that names an operation is that operation's word, bit for bit. -/
def Obligations.DecodeThenEncodeReturnsWord : Prop :=
  ∀ (w : Word) (i : Instr), decode w = .ok i → encode i = w

/-- 30_encoding R59: a word selects the operation of a row exactly when it equals the row's match value under the
mask, its operands are bits 2 and 3, and every word matches one row or is reserved. -/
def Obligations.DecodeFollowsMatchAndMask : Prop :=
  ∀ w : Word,
    (∀ e n, decode w = .ok (.block e n) ↔ w &&& 0xFFFFFFF3#32 = 0x00000001#32 ∧ e = w.getLsbD 2 ∧ n = w.getLsbD 3) ∧
    (∀ e n, decode w = .ok (.bgzf e n) ↔ w &&& 0xFFFFFFF3#32 = 0x00000002#32 ∧ e = w.getLsbD 2 ∧ n = w.getLsbD 3) ∧
    (∀ e n, decode w = .ok (.gzip e n) ↔ w &&& 0xFFFFFFF3#32 = 0x00000003#32 ∧ e = w.getLsbD 2 ∧ n = w.getLsbD 3) ∧
    ((∃ i, decode w = .ok i) ∨ w.toNat % 4 = 0 ∨ w.toNat / 16 ≠ 0)

/-- 30_encoding R60: the decoder refuses exactly the words with a bit of 31:4 set or `OP` = 00, by name. -/
def Obligations.DecodeRefusesExactlyReservedWords : Prop :=
  ∀ w : Word,
    (decode w = .error .reservedBits ↔ w.toNat / 16 ≠ 0) ∧
    (decode w = .error .reservedOp ↔ w.toNat / 16 = 0 ∧ w.toNat % 4 = 0) ∧
    (commandWordWellFormed w = true ↔ ∃ i, decode w = .ok i)

/-- 00_scope R13: `le16`, `le32` and `sint32`. -/
def Obligations.PackingFunctionsAreLittleEndian : Prop :=
  (∀ v < 2 ^ 16, (le16 v).map BitVec.toNat = [v % 256, v / 256]) ∧
  (∀ v < 2 ^ 32, (le32 v).map BitVec.toNat = [v % 256, v / 2 ^ 8 % 256, v / 2 ^ 16 % 256, v / 2 ^ 24 % 256]) ∧
  (∀ w : Word, (w.toNat < 2 ^ 31 → sint32 w = w.toNat) ∧ (¬ w.toNat < 2 ^ 31 → sint32 w = (w.toNat : Int) - 2 ^ 32))

/-! ### The step of the machine -/

/-- 10_state R25, R43: with the engine busy and its turn come, a step is `exec` of the operation the latched word
names; what the step adds around it is only the host's line that let the turn pass. `withFetchWord` places an
operation so. -/
def Obligations.StepRunsDecodedOperation : Prop :=
  (∀ (s : State) (i : Instr), s.hostTodo = [] → s.busy = true → decode s.cmdL = .ok i → step s = exec i s) ∧
  (∀ (s : State) (i : Instr) (rest : List HostLine), s.hostTodo = .pass :: rest → s.busy = true →
    decode s.cmdL = .ok i → step s = exec i { s with hostTodo := rest }) ∧
  (∀ (s : State) (i : Instr) (rest : List HostLine), s.hostTodo = .wait :: rest → s.busy = true →
    decode s.cmdL = .ok i → step s = exec i s) ∧
  (∀ (s : State) (i : Instr), step (s.withFetchWord 32 (encode i).toNat) =
    exec i (s.withFetchWord 32 (encode i).toNat))

/-- 10_state R25, 60_exceptions R129: in `S_IDLE`, `S_DONE` and `S_FAIL` the engine has no step. That the model's step
then leaves the state as it is, is its own choice (log 2). -/
def Obligations.EngineWaitsWhenNotBusy : Prop :=
  ∀ s : State, s.seq = .idle ∨ s.seq = .done ∨ s.seq = .fail →
    (s.hostTodo = [] → step s = .next s) ∧
    (∀ rest, s.hostTodo = .wait :: rest ∨ s.hostTodo = .pass :: rest → step s = .next { s with hostTodo := rest })

/-- The machine is the configured machine at the hardware's configuration, so what is stated for every configuration
holds of it. -/
def Obligations.StepIsConfiguredStep : Prop :=
  ∀ s : State, step s = stepWith Config.hw s

/-- 44_host_commands R105: the whole step of `S_VALIDATE`, on the bits of the latched word. Every failure has `ERR` 1,
`STAGE` 1 and offset 0, no request is made, and the status word of such a failure is 0x117. -/
def Obligations.ValidateChecksThenDispatches : Prop :=
  ∀ s : State, s.hostTodo = [] → s.seq = .validate →
    (step s = .next
      (if s.cmdL.toNat / 16 ≠ 0 ∨ s.cmdL.toNat % 4 = 0 then s.failedAt .invalidArgument 1#3 0
      else if s.cmdL.getLsbD 3 = true then s.failedAt .invalidArgument 1#3 0
      else if (s.cmdL.toNat % 4 = 2 ∨ s.cmdL.toNat % 4 = 3) ∧ ¬(-1 ≤ s.lvlL.toInt ∧ s.lvlL.toInt ≤ 9) then
        s.failedAt .invalidArgument 1#3 0
      else if s.cmdL.toNat % 4 = 1 ∧ (s.nL > 65280 ∨ s.capL > 65536) then s.failedAt .invalidArgument 1#3 0
      else if s.cmdL.toNat % 4 = 1 then { s with seq := .block }
      else if s.cmdL.toNat % 4 = 2 then { s with seq := .chunk }
      else { s with seq := .gzip })) ∧
    (s.failedAt .invalidArgument 1#3 0).status = 0x00000117#32

/-! ### The block compressor -/

/-- 41_block_compressor R73: in the zero-length case the function gives the 28 bytes for every level when the capacity
is at least 28, and fails when it is not; no collaborator is asked. -/
def Obligations.ZeroLengthBlockIsTheLiteralMarker : Prop :=
  ∀ (c : Config) (l : Int) (cap : Nat),
    compressBlock c [] l cap =
      if cap < 28 then none
      else some [0x1F, 0x8B, 0x08, 0x04, 0x00, 0x00, 0x00, 0x00, 0x00, 0xFF, 0x06, 0x00, 0x42, 0x43, 0x02, 0x00,
        0x1B, 0x00, 0x03, 0x00, 0x00, 0x00, 0x00, 0x00, 0x00, 0x00, 0x00, 0x00]

/-- 41_block_compressor R74, R75, 30_encoding R48 to R53: the general case. The payload space is the capacity less 26,
never below 0; on success the block is the sixteen fixed bytes, `BSIZE` = total - 1 low byte first, the payload, the
CRC32 of the chunk low byte first, and the chunk's length low byte first. -/
def Obligations.GeneralBlockHasTheWireLayout : Prop :=
  ∀ (c : Config) (ch : List Byte) (l : Int) (cap : Nat), ch ≠ [] →
    compressBlock c ch l cap =
      (c.deflate ch l (cap - 26)).map fun p =>
        [0x1F, 0x8B, 0x08, 0x04, 0x00, 0x00, 0x00, 0x00, 0x00, 0xFF, 0x06, 0x00, 0x42, 0x43, 0x02, 0x00]
          ++ [BitVec.ofNat 8 (p.length + 25), BitVec.ofNat 8 ((p.length + 25) / 256)]
          ++ p
          ++ [(c.crc32 ch).extractLsb' 0 8, (c.crc32 ch).extractLsb' 8 8, (c.crc32 ch).extractLsb' 16 8,
            (c.crc32 ch).extractLsb' 24 8]
          ++ [BitVec.ofNat 8 ch.length, BitVec.ofNat 8 (ch.length / 256), BitVec.ofNat 8 (ch.length / 65536),
            BitVec.ofNat 8 (ch.length / 16777216)]

/-- 41_block_compressor R79, 30_encoding R50, R56: every block carries the fixed header bytes, its own length less one
in bytes 16 and 17 without truncation, and the chunk's length at its end; it never passes the capacity. Its CRC field
is the CRC32 of the chunk in the general case, and in the zero-length case under the default CRC parameters. -/
def Obligations.EveryBlockKeepsTheHeaderInvariants : Prop :=
  ∀ (c : Config) (ch b : List Byte) (l : Int) (cap : Nat), ch.length ≤ 65280 → cap ≤ 65536 →
    compressBlock c ch l cap = some b →
    b.take 16 = hdr16 ∧
    (b.getD 16 0).toNat + 256 * (b.getD 17 0).toNat + 1 = b.length ∧
    (b.drop (b.length - 4)).map BitVec.toNat = [ch.length % 256, ch.length / 256, 0, 0] ∧
    (ch ≠ [] ∨ c.UsesGzipCrc → (b.drop (b.length - 8)).take 4 = le32 (c.crc32 ch).toNat) ∧
    27 ≤ b.length ∧ b.length ≤ cap ∧ (ch = [] → b.length = 28)

/-- 41_block_compressor R77: the step of `S_BLOCK`. It makes no request (`draws` is unchanged); on a failure the record
is `COMPRESS_FAILED`, stage 4, offset 0; otherwise the block is appended, which with nothing appended before is
`OUT[0..|r|)`, and the command is done. It completes for every input that is there.
The host keeps `CAP` bytes behind `OUT` (70_reset_and_hazards R134 (d); log 25). -/
def Obligations.BlockStepEmitsOneBlockOrFails : Prop :=
  ∀ (e n : Bool) (s : State) (ch : List Byte), s.seq = .block → s.input.slice 0 s.nL = some ch →
    ∃ t, exec (.block e n) s = .next t ∧
      t.forgetTemporaries =
        (match compressBlock Config.hw ch (sint32 s.lvlL) s.capL with
        | none => (s.failedAt .compressFailed 4#3 0).forgetTemporaries
        | some r =>
          ({ s with
              outCap := s.capL
              out := s.out.write s.outLen r
              outLen := s.outLen + r.length
              seq := .done } : State).forgetTemporaries) ∧
      (∀ r, compressBlock Config.hw ch (sint32 s.lvlL) s.capL = some r → s.out.wf → s.outLen = 0 →
        t.outLen = r.length ∧ t.out.slice 0 t.outLen = some r)

/-- 41_block_compressor R73, R77: a `BLOCK` of an empty chunk with room for 28 bytes ends in `S_DONE` with the marker
appended, whatever the level; no collaborator answer enters.
The host keeps `CAP` bytes behind `OUT` (70_reset_and_hazards R134 (d); log 25). -/
def Obligations.BlockOfEmptyChunkCompletes : Prop :=
  ∀ (e n : Bool) (s : State), s.seq = .block → s.nL = 0 → 28 ≤ s.capL →
    ∃ t, exec (.block e n) s = .next t ∧
      t.forgetTemporaries =
        ({ s with
            outCap := s.capL
            out := s.out.write s.outLen
              [0x1F, 0x8B, 0x08, 0x04, 0x00, 0x00, 0x00, 0x00, 0x00, 0xFF, 0x06, 0x00, 0x42, 0x43, 0x02, 0x00,
                0x1B, 0x00, 0x03, 0x00, 0x00, 0x00, 0x00, 0x00, 0x00, 0x00, 0x00, 0x00]
            outLen := s.outLen + 28
            seq := .done } : State).forgetTemporaries

/-- 41_block_compressor R78: `BLOCK` has no level test at validation; with a non-empty chunk an illegal level is
`COMPRESS_FAILED`, stage 4, never `INVALID_ARGUMENT`. -/
def Obligations.BlockReportsIllegalLevelAsCompressFailed : Prop :=
  (∀ (e : Bool) (s : State), s.seq = .validate → s.nL ≤ 65280 → s.capL ≤ 65536 →
    exec (.block e false) s = .next { s with seq := .block }) ∧
  (∀ (e n : Bool) (s : State) (ch : List Byte), s.seq = .block → s.input.slice 0 s.nL = some ch → ch ≠ [] →
    ¬(-1 ≤ s.lvlL.toInt ∧ s.lvlL.toInt ≤ 9) →
    ∃ t, exec (.block e n) s = .next t ∧
      t.forgetTemporaries = (s.failedAt .compressFailed 4#3 0).forgetTemporaries)

/-! ### The ports -/

/-- 40_collaborator_ports R62, R67: what the machine assumes of `DEFLATE` and `GZIPSTREAM` is their contract and no
more: every answer keeps it, no space or an illegal level always fails `DEFLATE`, and every function that keeps it is
the port of some configuration. -/
def Obligations.PortsKeepExactlyTheirContracts : Prop :=
  (∀ (c : Config) (ch p : List Byte) (l : Int) (sp : Nat), c.deflate ch l sp = some p →
    1 ≤ p.length ∧ p.length ≤ sp ∧ -1 ≤ l ∧ l ≤ 9) ∧
  (∀ (c : Config) (ch : List Byte) (l : Int), c.deflate ch l 0 = none) ∧
  (∀ (c : Config) (i g : List Byte) (l : Int) (sp : Nat), c.gzipStream i l sp = some g →
    1 ≤ g.length ∧ g.length ≤ sp) ∧
  (∀ f : List Byte → Int → Nat → Option (List Byte),
    (∀ ch l sp p, f ch l sp = some p → 1 ≤ p.length ∧ p.length ≤ sp ∧ -1 ≤ l ∧ l ≤ 9) →
    ∃ c : Config, ∀ ch l sp, c.deflate ch l sp = f ch l sp) ∧
  (∀ f : List Byte → Int → Nat → Option (List Byte),
    (∀ i l sp g, f i l sp = some g → 1 ≤ g.length ∧ g.length ≤ sp) →
    ∃ c : Config, ∀ i l sp, c.gzipStream i l sp = f i l sp)

/-- 40_collaborator_ports R66: the accumulator formula, and under the default parameters (general knowledge, log 11)
the check values of the spec. -/
def Obligations.CrcAccumulatesByteByByte : Prop :=
  (∀ c : Config, c.crc32 [] = c.crcFinal c.crcInit) ∧
  (∀ (c : Config) (bs : List Byte) (b : Byte), ∃ a, c.crc32 bs = c.crcFinal a ∧
    c.crc32 (bs ++ [b]) = c.crcFinal (c.crcStep a b)) ∧
  (∀ c : Config, c.UsesGzipCrc →
    c.crc32 [] = 0x00000000#32 ∧ c.crc32 [0x61] = 0xE8B7BE43#32 ∧
    c.crc32 [0x31, 0x32, 0x33, 0x34, 0x35, 0x36, 0x37, 0x38, 0x39] = 0xCBF43926#32)

/-! ### The chunking sequencer -/

/-- 42_bgzf_encoder R84, R85: the step of `S_CHUNK` with input left and the input there. The request is for
`OUT_LEN + 65536`; a denied one is `RESOURCE_EXHAUSTED`; a failing block is `COMPRESS_FAILED`, both at `OFF`, stage 2;
otherwise the block of 27 to 65536 bytes is appended, `OFF` advances by the chunk's size and the state stays
`S_CHUNK`. -/
def Obligations.ChunkStepAppendsOneBlockOrFails : Prop :=
  ∀ (e n : Bool) (s : State) (ch : List Byte), s.seq = .chunk → 0 < s.nL - s.off →
    s.input.slice s.off (min (s.nL - s.off) 65280) = some ch →
    ∃ t, exec (.bgzf e n) s = .next t ∧
      t.forgetTemporaries =
        (if Config.hw.grants s.draws (s.outLen + 65536) = true then
          match compressBlock Config.hw ch (sint32 s.lvlL) 65536 with
          | none => ({ s with draws := s.draws + 1 } : State).failedAt .compressFailed 2#3 s.off
          | some r =>
            { s with
              outCap := s.outLen + 65536
              out := s.out.write s.outLen r
              outLen := s.outLen + r.length
              off := s.off + min (s.nL - s.off) 65280
              draws := s.draws + 1 }
        else ({ s with draws := s.draws + 1 } : State).failedAt .resourceExhausted 2#3 s.off).forgetTemporaries ∧
      (∀ (c : Config) (r : List Byte), compressBlock c ch (sint32 s.lvlL) 65536 = some r →
        27 ≤ r.length ∧ r.length ≤ 65536)

/-- 40_collaborator_ports R68, 60_exceptions R114, R117: a request that fits no register is denied, and a denied
request in `S_CHUNK` fails there, before the input is read or the compressor asked. -/
def Obligations.DeniedGrowRequestFailsTheChunk : Prop :=
  (∀ (c : Config) (k n : Nat), 2 ^ c.lenBits ≤ n → c.grants k n = false) ∧
  (∀ (e n : Bool) (s : State), s.seq = .chunk → 0 < s.nL - s.off →
    Config.hw.grants s.draws (s.outLen + 65536) = false →
    exec (.bgzf e n) s = .next (({ s with draws := s.draws + 1 } : State).failedAt .resourceExhausted 2#3 s.off))

/-- 42_bgzf_encoder R86: with no input left the loop is left; nothing else is written and no collaborator is asked. -/
def Obligations.ChunkLoopIsLeftWhenNothingRemains : Prop :=
  ∀ (e n : Bool) (s : State), s.seq = .chunk → s.nL - s.off = 0 → exec (.bgzf e n) s = .next { s with seq := .eof }

/-- 42_bgzf_encoder R88: the step of `S_EOF`. With the marker requested, one request for `OUT_LEN + 28`; a denied one
fails at `OFF`, stage 3; a granted one appends the literal 28 bytes. Without it the step only changes `STATE`. -/
def Obligations.EofStepAppendsTheMarkerWhenRequested : Prop :=
  ∀ (e n : Bool) (s : State), s.seq = .eof →
    exec (.bgzf e n) s = .next
      (if e = true then
        if Config.hw.grants s.draws (s.outLen + 28) = true then
          { s with
            outCap := s.outLen + 28
            out := s.out.write s.outLen
              [0x1F, 0x8B, 0x08, 0x04, 0x00, 0x00, 0x00, 0x00, 0x00, 0xFF, 0x06, 0x00, 0x42, 0x43, 0x02, 0x00,
                0x1B, 0x00, 0x03, 0x00, 0x00, 0x00, 0x00, 0x00, 0x00, 0x00, 0x00, 0x00]
            outLen := s.outLen + 28
            draws := s.draws + 1
            seq := .done }
        else ({ s with draws := s.draws + 1 } : State).failedAt .resourceExhausted 3#3 s.off
      else { s with seq := .done })

/-! ### The plain gzip encoder -/

/-- 43_gzip_encoder R96, R97: the step of `S_GZIP`. One request for `N_L + 26`; a denied one is `RESOURCE_EXHAUSTED`, a
failing compressor `COMPRESS_FAILED`, both at offset 0, stage 5; otherwise the stream, of 1 to `N_L + 26` bytes, is
appended and the command is done. -/
def Obligations.GzipStepAppendsTheStreamOrFails : Prop :=
  ∀ (e n : Bool) (s : State) (i : List Byte), s.seq = .gzip → s.input.slice 0 s.nL = some i →
    exec (.gzip e n) s = .next
      (if Config.hw.grants s.draws (s.nL + 26) = true then
        match Config.hw.gzipStream i (sint32 s.lvlL) (s.nL + 26) with
        | none => ({ s with draws := s.draws + 1 } : State).failedAt .compressFailed 5#3 0
        | some g =>
          { s with
            outCap := s.nL + 26
            out := s.out.write s.outLen g
            outLen := s.outLen + g.length
            draws := s.draws + 1
            seq := .done }
      else ({ s with draws := s.draws + 1 } : State).failedAt .resourceExhausted 5#3 0) ∧
    (∀ (c : Config) (g : List Byte), c.gzipStream i (sint32 s.lvlL) (s.nL + 26) = some g →
      1 ≤ g.length ∧ g.length ≤ s.nL + 26)

/-- 43_gzip_encoder R96, 40_collaborator_ports R68: when `N_L + 26` fits no register the request is denied and the
command fails, whatever the input. -/
def Obligations.GzipOfUnreservableSizeIsDenied : Prop :=
  ∀ (e n : Bool) (s : State), s.seq = .gzip → 2 ^ Config.hw.lenBits ≤ s.nL + 26 →
    exec (.gzip e n) s = .next (({ s with draws := s.draws + 1 } : State).failedAt .resourceExhausted 5#3 0)

/-- 43_gzip_encoder R96: for every configuration whose allocator grants the request and whose compressor answers, a
`GZIP` step appends the answer and is done; `exec` is the instance at the hardware's configuration. -/
def Obligations.GzipCompletesWhenAnswered : Prop :=
  (∀ (c : Config) (e n : Bool) (s : State) (i g : List Byte), s.seq = .gzip → s.input.slice 0 s.nL = some i →
    c.grants s.draws (s.nL + 26) = true → c.gzipStream i (sint32 s.lvlL) (s.nL + 26) = some g →
    execWith c (.gzip e n) s = .next
      { s with
        outCap := s.nL + 26
        out := s.out.write s.outLen g
        outLen := s.outLen + g.length
        draws := s.draws + 1
        seq := .done }) ∧
  (∀ (i : Instr) (s : State), exec i s = execWith Config.hw i s)

/-! ### Failures -/

/-- 60_exceptions R112 to R116, R118: a step that ends in `S_FAIL` leaves a record that says which step failed, with
what class and at which offset; it withdraws the output and leaves `OFF`, the latches, the host's registers, `IN` and
the bytes of `OUT` as they were. -/
def Obligations.FailureRecordSaysWhichStepFailed : Prop :=
  ∀ (i : Instr) (s t : State), exec i s = .next t → t.seq = .fail →
    ((t.err = .invalidArgument ∧ s.seq = .validate ∧ t.errOffset = 0) ∨
      (t.err = .compressFailed ∧ s.seq = .chunk ∧ t.errOffset = s.off) ∨
      (t.err = .compressFailed ∧ s.seq = .block ∧ t.errOffset = 0) ∨
      (t.err = .compressFailed ∧ s.seq = .gzip ∧ t.errOffset = 0) ∨
      (t.err = .resourceExhausted ∧ s.seq = .chunk ∧ t.errOffset = s.off) ∨
      (t.err = .resourceExhausted ∧ s.seq = .eof ∧ t.errOffset = s.off) ∨
      (t.err = .resourceExhausted ∧ s.seq = .gzip ∧ t.errOffset = 0)) ∧
    t.stage = s.seq.code ∧ t.outLen = 0 ∧ t.outCap = 0 ∧
    t.off = s.off ∧ t.cmdL = s.cmdL ∧ t.lvlL = s.lvlL ∧ t.nL = s.nL ∧ t.capL = s.capL ∧
    t.level = s.level ∧ t.inLen = s.inLen ∧ t.cap = s.cap ∧ t.input = s.input ∧ t.out = s.out

/-- 10_state R24 (log 3): an operation has a rule only in the sequencer states it can be in; elsewhere it faults, and
nowhere else. -/
def Obligations.OperationFaultsExactlyOutsideItsStates : Prop :=
  ∀ (e n : Bool) (s : State) (r : Fault),
    (exec (.block e n) s = .fault r ↔ s.seq ≠ .validate ∧ s.seq ≠ .block) ∧
    (exec (.bgzf e n) s = .fault r ↔ s.seq ≠ .validate ∧ s.seq ≠ .chunk ∧ s.seq ≠ .eof) ∧
    (exec (.gzip e n) s = .fault r ↔ s.seq ≠ .validate ∧ s.seq ≠ .gzip)

/-- 70_reset_and_hazards R134, 93_implementation_defined U13 (log 7): the only run an operation refuses is one whose
step reads an input byte below `N_L` that the host did not supply. -/
def Obligations.OnlyMissingInputIsRefused : Prop :=
  ∀ (i : Instr) (s : State) (r : Refusal), s.input.wf → exec i s = .refused r →
    r = .inputNotSupplied ∧ ∃ a < s.nL, s.input.read a = none

/-! ### Frames -/

/-- 10_state R23, 20_memory R43, R47: no step of any operation writes the host's registers, the latches, `IN`, or the
model's own host fields. -/
def Obligations.NoOperationWritesOperandsOrInput : Prop :=
  ∀ (i : Instr) (s t : State), exec i s = .next t →
    t.level = s.level ∧ t.inLen = s.inLen ∧ t.cap = s.cap ∧ t.cmdL = s.cmdL ∧ t.lvlL = s.lvlL ∧ t.nL = s.nL ∧
    t.capL = s.capL ∧ t.input = s.input ∧ t.hostTodo = s.hostTodo ∧ t.hostSaw = s.hostSaw

/-- 20_memory R34: a step of any operation stores only from `OUT_LEN` on, as many bytes as `OUT_LEN` grows by; every
other offset of `OUT` reads as before, and a step that fails or only changes `STATE` stores nothing. Where it stores,
the growth is within the reserved capacity. -/
def Obligations.OperationsOnlyAppend : Prop :=
  ∀ (i : Instr) (s t : State), exec i s = .next t →
    (∀ a, ¬(s.outLen ≤ a ∧ a < t.outLen) → t.out.read a = s.out.read a) ∧
    (t.seq ≠ .fail → s.outLen ≤ t.outLen) ∧
    (t.seq = .done ∨ t.seq = .chunk → ∀ a, s.outLen ≤ a → a < t.outLen → (t.out.read a).isSome = true) ∧
    (s.outLen = 0 ∨ s.seq = .chunk ∨ s.seq = .eof → t.seq ≠ .fail → s.outLen < t.outLen → t.outLen ≤ t.outCap)

/-- 42_bgzf_encoder R84, R85, 10_state R25: `OFF` moves only in a chunk step that appends its block, by the chunk's
size; `BLOCK` and `GZIP` never move it. -/
def Obligations.OffsetMovesOnlyWithAnAppendedChunk : Prop :=
  ∀ (e n : Bool) (s t : State),
    (exec (.block e n) s = .next t → t.off = s.off) ∧
    (exec (.gzip e n) s = .next t → t.off = s.off) ∧
    (exec (.bgzf e n) s = .next t →
      t.off = s.off ∨
        (s.seq = .chunk ∧ t.seq = .chunk ∧ s.off < s.nL ∧ t.off = s.off + min (s.nL - s.off) 65280 ∧
          s.outLen + 27 ≤ t.outLen ∧ t.outLen ≤ s.outLen + 65536))

/-- 10_state R20, R22, 60_exceptions R111: `ERR`, `STAGE` and `ERR_OFFSET` are written by a failing step only; `GZIP`
never touches the block datapath (43_gzip_encoder; that the temporaries keep their values between steps is the
model's choice, log 5), and a validation that passes leaves `OUT_CAP`, `OUT_LEN` and `OUT` alone (44_host_commands R105,
10_state R28). -/
def Obligations.StatusRecordChangesOnlyOnFailure : Prop :=
  ∀ (i : Instr) (s t : State), exec i s = .next t →
    (t.seq ≠ .fail → t.err = s.err ∧ t.stage = s.stage ∧ t.errOffset = s.errOffset) ∧
    ((∃ e n, i = .gzip e n) →
      t.isizeR = s.isizeR ∧ t.plen = s.plen ∧ t.blen = s.blen ∧ t.crcAcc = s.crcAcc) ∧
    (s.seq = .validate → t.seq ≠ .fail → t.outCap = s.outCap ∧ t.outLen = s.outLen ∧ t.out = s.out)

/-! ### The host's actions -/

/-- 44_host_commands R103: a write of `w` to `CMD` while not busy latches the operands, clears what the last command
left and enters `S_VALIDATE`; and it is the only way into `S_VALIDATE`. The premise that the announced input is there,
or `IN_NULL` = 1, is 70_reset_and_hazards R134 (a); `StartWithoutItsInputIsRefused` states the other case. -/
def Obligations.StartLatchesOperandsAndClears : Prop :=
  (∀ (s : State) (w : Word) (rest : List HostLine), s.hostTodo = .write 0 w.toNat :: rest → s.busy = false →
    (w.getLsbD 3 = true ∨ (s.input.slice 0 s.inLen).isSome = true) →
    step s = .next
      { s with
        hostTodo := rest
        cmdL := w
        lvlL := s.level
        nL := s.inLen
        capL := s.cap
        off := 0
        outLen := 0
        outCap := 0
        out := []
        err := .none
        stage := 0#3
        errOffset := 0
        seq := .validate }) ∧
  (∀ s t : State, step s = .next t → s.seq ≠ .validate → t.seq = .validate →
    s.busy = false ∧ ∃ w rest, s.hostTodo = .write 0 w :: rest)

/-- 70_reset_and_hazards R134, 93_implementation_defined U13 (log 7): a command that announces more input than the host
supplied, with `IN_NULL` = 0, has no meaning: its START is refused, whatever else the word and the registers say. -/
def Obligations.StartWithoutItsInputIsRefused : Prop :=
  ∀ (s : State) (w : Word) (rest : List HostLine), s.hostTodo = .write 0 w.toNat :: rest → s.busy = false →
    w.getLsbD 3 = false → s.input.wf → (∃ a < s.inLen, s.input.read a = none) →
    step s = .refused .inputNotSupplied

/-- 44_host_commands R102: a write to `CMD` while busy is dropped; only the host's line is gone. -/
def Obligations.DoorbellWhileBusyIsDropped : Prop :=
  ∀ (s : State) (w : Word) (rest : List HostLine), s.hostTodo = .write 0 w.toNat :: rest → s.busy = true →
    step s = .next { s with hostTodo := rest }

/-- 44_host_commands R101: the operand registers take the value written, at any time and in any state, with no other
effect; writes to index 4 and up are ignored. -/
def Obligations.OperandRegistersTakeTheValueWritten : Prop :=
  (∀ (s : State) (v : Word) (rest : List HostLine), s.hostTodo = .write 1 v.toNat :: rest →
    step s = .next { s with hostTodo := rest, level := v }) ∧
  (∀ (s : State) (v : Nat) (rest : List HostLine), v < 2 ^ Config.hw.lenBits → s.hostTodo = .write 2 v :: rest →
    step s = .next { s with hostTodo := rest, inLen := v }) ∧
  (∀ (s : State) (v : Nat) (rest : List HostLine), v < 2 ^ Config.hw.lenBits → s.hostTodo = .write 3 v :: rest →
    step s = .next { s with hostTodo := rest, cap := v }) ∧
  (∀ (s : State) (i v : Nat) (rest : List HostLine), 4 ≤ i → s.hostTodo = .write i v :: rest →
    step s = .next { s with hostTodo := rest })

/-- 44_host_commands R100: what a register read returns, index by index, and that it changes nothing of the engine.
While busy, `OUT_LEN` and `ERR_OFFSET` return some value: that it fits the register (10_state R15) is the model's
choice, log 16, and that what was read is recorded in the state is its choice, log 15. -/
def Obligations.RegisterReadsReturnTheRegister : Prop :=
  ∀ (s : State) (i : Nat) (rest : List HostLine), s.hostTodo = .read i :: rest →
    ∃ v d, step s = .next { s with hostTodo := rest, hostSaw := .register i v :: s.hostSaw, draws := d } ∧
      (i = 0 → v = s.cmdL.toNat) ∧ (i = 1 → v = s.level.toNat) ∧ (i = 2 → v = s.inLen) ∧ (i = 3 → v = s.cap) ∧
      (i = 4 → v = s.seq.code.toNat + 8 * (if s.busy = true then 1 else 0) + 16 * s.err.code.toNat
        + 256 * s.stage.toNat) ∧
      (i = 5 → s.busy = false → v = s.outLen) ∧ (i = 6 → s.busy = false → v = s.errOffset) ∧
      (i = 5 ∨ i = 6 → s.busy = true → v < 2 ^ Config.hw.lenBits) ∧ (7 ≤ i → v = 0)

/-- 10_state R20, R24, 60_exceptions R111, R115, 95_test_vectors 2.9: in every state that meets the invariant the
status word is one of fourteen values. -/
def Obligations.StatusTakesFourteenValues : Prop :=
  ∀ s : State, s.Inv Config.hw →
    s.status ∈ [0x00000000#32, 0x00000009#32, 0x0000000A#32, 0x0000000B#32, 0x0000000C#32, 0x0000000D#32,
      0x00000006#32, 0x00000117#32, 0x00000227#32, 0x00000237#32, 0x00000337#32, 0x00000427#32, 0x00000527#32,
      0x00000537#32]

/-- 70_reset_and_hazards R131, R132: the reset input, in any state, puts every register with a stated reset value to it,
abandons the command in flight, and does not touch `IN`. -/
def Obligations.ResetInputRestoresEveryRegister : Prop :=
  ∀ (s : State) (rest : List HostLine), s.hostTodo = .reset :: rest →
    ∃ t, step s = .next t ∧
      t.cmdL = 0#32 ∧ t.level = 9#32 ∧ t.lvlL = 9#32 ∧ t.inLen = 0 ∧ t.nL = 0 ∧ t.cap = 65536 ∧ t.capL = 65536 ∧
      t.seq = .idle ∧ t.err = .none ∧ t.stage = 0#3 ∧ t.status = 0x00000000#32 ∧ t.outLen = 0 ∧ t.errOffset = 0 ∧
      t.off = 0 ∧ t.outCap = 0 ∧ t.input = s.input

/-- 70_reset_and_hazards R132: the state after reset. -/
def Obligations.ResetStateHasTheStatedValues : Prop :=
  State.reset.cmdL = 0#32 ∧ State.reset.level = 0x00000009#32 ∧ State.reset.lvlL = 0x00000009#32 ∧
  State.reset.inLen = 0 ∧ State.reset.nL = 0 ∧ State.reset.cap = 65536 ∧ State.reset.capL = 65536 ∧
  State.reset.seq = .idle ∧ State.reset.busy = false ∧ State.reset.err = .none ∧ State.reset.stage = 0#3 ∧
  State.reset.status = 0x00000000#32 ∧ State.reset.outLen = 0 ∧ State.reset.errOffset = 0 ∧ State.reset.off = 0 ∧
  State.reset.outCap = 0 ∧ State.reset.out = []

/-- 70_reset_and_hazards R135, 20_memory R47, 93_implementation_defined U1: a host that changes `IN` while a command runs
is refused; that every change is, whatever the bytes, is the model's choice, log 14. Otherwise `IN` then holds exactly
the bytes given, from offset 0, as the line `in` of 44_host_commands R109 says (read so by inference, log 20), and
nothing else changes. -/
def Obligations.InputIsStableWhileBusy : Prop :=
  ∀ (s : State) (bytes : List Byte) (rest : List HostLine), s.hostTodo = .input bytes :: rest →
    (s.busy = true → step s = .refused .inputChangedWhileBusy) ∧
    (s.busy = false → ∃ m, step s = .next { s with hostTodo := rest, input := m } ∧ m.wf ∧
      (∀ a, Memory.read m a = bytes[a]?) ∧ Memory.slice m 0 bytes.length = some bytes)

/-- 70_reset_and_hazards R136, 44_host_commands R110: in `S_DONE` a host that reads `OUT` below `OUT_LEN` gets the bytes
stored, and one that takes the result gets them all; in `S_FAIL` it gets the record. Nothing of the engine changes. -/
def Obligations.HostReadsTheResult : Prop :=
  (∀ (s : State) (offset count : Nat) (bs : List Byte) (rest : List HostLine),
    s.hostTodo = .readOut offset count :: rest → s.seq = .done → s.out.wf → offset + count ≤ s.outLen →
    s.out.slice offset count = some bs →
    step s = .next { s with hostTodo := rest, hostSaw := .outBytes offset bs :: s.hostSaw, draws := s.draws + 1 }) ∧
  (∀ (s : State) (bs : List Byte) (rest : List HostLine), s.hostTodo = .takeResult :: rest → s.seq = .done →
    s.out.wf → s.out.slice 0 s.outLen = some bs →
    step s = .next { s with hostTodo := rest, hostSaw := .result bs :: s.hostSaw, draws := s.draws + 1 }) ∧
  (∀ (s : State) (rest : List HostLine), s.hostTodo = .takeResult :: rest → s.seq = .fail →
    step s = .next { s with hostTodo := rest, hostSaw := .diagnostic s.err s.stage s.errOffset :: s.hostSaw })

/-- 10_state R23, 44_host_commands R104: the four latches change at START and at reset only; at START they take the
written word and the host's three operand registers. -/
def Obligations.LatchesChangeOnlyAtStartOrReset : Prop :=
  ∀ s t : State, step s = .next t →
    (t.cmdL = s.cmdL ∧ t.lvlL = s.lvlL ∧ t.nL = s.nL ∧ t.capL = s.capL) ∨
    (∃ w rest, s.hostTodo = .write 0 w :: rest ∧ s.busy = false ∧ t.cmdL = BitVec.ofNat 32 w ∧ t.lvlL = s.level ∧
      t.nL = s.inLen ∧ t.capL = s.cap) ∨
    (∃ rest, s.hostTodo = .reset :: rest)

/-- 10_state R24, 44_host_commands R110, 60_exceptions R120, 70_reset_and_hazards R136: `S_DONE` and `S_FAIL` are left
by the host's START or by reset only; until then the result, or the record, stays as it is. -/
def Obligations.FinishedStatesAreLeftOnlyByStartOrReset : Prop :=
  ∀ s t : State, s.seq = .done ∨ s.seq = .fail → step s = .next t →
    (t.seq = s.seq ∧ t.outLen = s.outLen ∧ t.out = s.out ∧ t.err = s.err ∧ t.stage = s.stage ∧
      t.errOffset = s.errOffset ∧ t.status = s.status) ∨
    (t.seq = .validate ∧ ∃ w rest, s.hostTodo = .write 0 w :: rest) ∨
    (t.seq = .idle ∧ ∃ rest, s.hostTodo = .reset :: rest)

/-! ### Invariants -/

/-- The state after reset meets the invariant. -/
def Obligations.ResetMeetsInvariant : Prop :=
  State.reset.Inv Config.hw

/-- Every step, of the engine or of the host, keeps the invariant (10_state R20 to R31, 60_exceptions R112 to R118). -/
def Obligations.EveryStepKeepsInvariant : Prop :=
  ∀ s t : State, s.Inv Config.hw → step s = .next t → t.Inv Config.hw

/-- In a state that meets the invariant no step faults: an operation is never met in a state without a rule for it. -/
def Obligations.NoStepFaultsUnderInvariant : Prop :=
  ∀ (s : State) (r : Fault), s.Inv Config.hw → step s ≠ .fault r

/-- 70_reset_and_hazards R134, R135, 93_implementation_defined U1, U13: under the invariant no step of the engine is
refused. A refusal answers the host's own pending line: a START without its input (log 7), a change of `IN` while busy
(log 14), or a number wider than its register (log 13). -/
def Obligations.RefusalsAnswerOnlyTheHost : Prop :=
  ∀ (s : State) (r : Refusal), s.Inv Config.hw → step s = .refused r →
    (r = .inputNotSupplied ∧ s.busy = false ∧ ∃ w rest, s.hostTodo = .write 0 w :: rest) ∨
    (r = .inputChangedWhileBusy ∧ s.busy = true ∧ ∃ bytes rest, s.hostTodo = .input bytes :: rest) ∨
    (r = .valueDoesNotFit ∧ ∃ i v rest, i < 4 ∧ s.hostTodo = .write i v :: rest)

/-! ### Whole commands -/

/-- 00_scope R11, 44_host_commands R104, 70_reset_and_hazards R133: two states that agree on the host's operand
registers, on `IN` and on the allocator's draws, started with the same word, run identically step by step, whatever
earlier commands left in either. -/
def Obligations.CommandsAreStateless : Prop :=
  ∀ (c : Config) (s₁ s₂ : State) (w : Word) (k : Nat),
    s₁.level = s₂.level → s₁.inLen = s₂.inLen → s₁.cap = s₂.cap → s₁.input = s₂.input → s₁.draws = s₂.draws →
    s₁.hostTodo = [] → s₂.hostTodo = [] →
    sameOutcome State.commandView (Host.Core.run (coreWith c) k (s₁.start w)) (Host.Core.run (coreWith c) k (s₂.start w))

/-- 42_bgzf_encoder R90, 70_reset_and_hazards R139: a `BGZF` command whose requests are all granted reaches, within
`K + 3` steps, `S_DONE` with exactly the bytes of `bgzf_encode`, or `S_FAIL` with its class and offset. -/
def Obligations.BgzfCommandComputesItsEncoding : Prop :=
  ∀ (c : Config) (s : State) (e : Bool) (S : List Byte),
    s.StartedWith (.bgzf e false) S → s.input.wf → c.GrantsFrom s.draws →
    65536 * chunkCount S.length + 28 < 2 ^ c.lenBits →
    ∃ t, Host.Core.run (coreWith c) (chunkCount S.length + 3) s = .next t ∧
      match bgzfEncode c S (sint32 s.lvlL) e with
      | .ok bytes => t.DoneWith bytes
      | .error (err, off) => ∃ stage, t.FailedWith err stage off

/-- 42_bgzf_encoder R90, R93, 70_reset_and_hazards R139: whatever the allocator answers, a `BGZF` command ends within
`K + 3` steps, and if it ends in `S_DONE` its output is exactly `bgzf_encode`. -/
def Obligations.BgzfCommandAlwaysEnds : Prop :=
  ∀ (c : Config) (s : State) (e : Bool) (S : List Byte),
    s.StartedWith (.bgzf e false) S → s.input.wf →
    ∃ t, Host.Core.run (coreWith c) (chunkCount S.length + 3) s = .next t ∧
      ((∃ bytes, bgzfEncode c S (sint32 s.lvlL) e = .ok bytes ∧ t.DoneWith bytes) ∨
        ∃ err stage off, t.FailedWith err stage off)

/-- 43_gzip_encoder R98, 70_reset_and_hazards R139: a `GZIP` command whose request is granted ends within two steps in
`S_DONE` with `gzip_encode`, or in `S_FAIL` with its class; a denied request ends it with `RESOURCE_EXHAUSTED`. -/
def Obligations.GzipCommandComputesItsEncoding : Prop :=
  ∀ (c : Config) (s : State) (e : Bool) (S : List Byte), s.StartedWith (.gzip e false) S → s.input.wf →
    ∃ t, Host.Core.run (coreWith c) 2 s = .next t ∧
      match gzipEncode c S (sint32 s.lvlL) with
      | .error .invalidArgument => t.FailedWith .invalidArgument 1#3 0
      | .error err =>
        if c.grants s.draws (S.length + 26) = true then t.FailedWith err 5#3 0
        else t.FailedWith .resourceExhausted 5#3 0
      | .ok bytes =>
        if c.grants s.draws (S.length + 26) = true then t.DoneWith bytes
        else t.FailedWith .resourceExhausted 5#3 0

/-- 41_block_compressor R71, R77, R80: a `BLOCK` command ends within two steps: `INVALID_ARGUMENT` on operands outside
its domain, else the block of `compress_block` or `COMPRESS_FAILED`.
The host keeps `CAP` bytes behind `OUT` (70_reset_and_hazards R134 (d); log 25). -/
def Obligations.BlockCommandComputesItsBlock : Prop :=
  ∀ (c : Config) (s : State) (e : Bool) (S : List Byte), s.StartedWith (.block e false) S → s.input.wf →
    ∃ t, Host.Core.run (coreWith c) 2 s = .next t ∧
      if S.length > 65280 ∨ s.capL > 65536 then t.FailedWith .invalidArgument 1#3 0
      else
        match compressBlock c S (sint32 s.lvlL) s.capL with
        | some b => t.DoneWith b
        | none => t.FailedWith .compressFailed 4#3 0

/-- 43_gzip_encoder R99, 40_collaborator_ports R67: under `GZIP_SOUND`, whatever a successful `GZIP` command leaves in
`OUT[0..OUT_LEN)` is 1 to `N + 26` bytes that a gzip decoder turns back into exactly the input. -/
def Obligations.GzipOutputDecodesToTheInput : Prop :=
  ∀ (c : Config) (gunzip : List Byte → Option (List Byte)) (s t : State) (e : Bool) (S : List Byte),
    c.GzipSound gunzip → s.StartedWith (.gzip e false) S → s.input.wf →
    Host.Core.run (coreWith c) 2 s = .next t → t.seq = .done →
    ∃ bytes, t.out.slice 0 t.outLen = some bytes ∧ 1 ≤ bytes.length ∧ bytes.length ≤ S.length + 26 ∧
      gunzip bytes = some S

/-- 42_bgzf_encoder R83, R91: the chunks are the input, cut in order into `ceil(N / 65280)` pieces of 65280 bytes but
for the last, none of them empty. -/
def Obligations.ChunksPartitionTheInput : Prop :=
  ∀ S : List Byte,
    (chunks S).flatten = S ∧ (chunks S).length = (S.length + 65279) / 65280 ∧
    (∀ k, k < (chunks S).length → ((chunks S)[k]?.getD []).length = min (S.length - 65280 * k) 65280) ∧
    ∀ ch ∈ chunks S, ch ≠ []

/-- 42_bgzf_encoder R91: the length of a successful encoding lies between `27·K + 28·e` and `65536·K + 28·e`. -/
def Obligations.EncodingLengthIsBounded : Prop :=
  ∀ (c : Config) (S bytes : List Byte) (l : Int) (e : Bool), bgzfEncode c S l e = .ok bytes →
    27 * chunkCount S.length + (if e = true then 28 else 0) ≤ bytes.length ∧
    bytes.length ≤ 65536 * chunkCount S.length + (if e = true then 28 else 0)

/-- 42_bgzf_encoder R92 (c), (d), (e): the encoding with the marker is the encoding without it followed by the marker,
and they fail together; the empty input gives no bytes, or the marker alone; an illegal level is always an invalid
argument. -/
def Obligations.EofMarkerIsOnlyAppended : Prop :=
  ∀ (c : Config) (S : List Byte) (l : Int),
    bgzfEncode c S l true = (bgzfEncode c S l false).map (· ++ eofMarker) ∧
    (-1 ≤ l ∧ l ≤ 9 → bgzfEncode c [] l false = .ok [] ∧ bgzfEncode c [] l true = .ok eofMarker) ∧
    (¬(-1 ≤ l ∧ l ≤ 9) → ∀ e, bgzfEncode c S l e = .error (.invalidArgument, 0))

/-- 42_bgzf_encoder R92 (g): under `DEFLATE_SOUND`, a reader that walks the blocks by `BSIZE`, checks header, CRC and
length, and decodes each payload to its very end, gives back the input from every successful encoding; under `DEFLATE_FITS` every
encoding at a legal level is successful. -/
def Obligations.EncodingReadsBackToTheInput : Prop :=
  (∀ (c : Config) (inflate : List Byte → Option (List Byte × Nat)) (S bytes : List Byte) (l : Int),
    c.DeflateSound inflate → bgzfEncode c S l false = .ok bytes →
    readBlocks inflate c.crc32 (chunkCount S.length) bytes = some S) ∧
  (∀ (c : Config) (S : List Byte) (l : Int) (e : Bool), c.DeflateFits → levelLegal l = true →
    ∃ bytes, bgzfEncode c S l e = .ok bytes)

/-- 44_host_commands R107, R110: the pseudo-command `compress`, from any state with no command running, returns the
encoding when it succeeds and its class and offset when it fails; null content is an invalid argument. The step counts
`K + 9` and 4 are those of the model's schedule of host lines and engine steps (log 1). -/
def Obligations.CompressReturnsTheEncoding : Prop :=
  (∀ (c : Config) (s : State) (S : List Byte) (l : Int) (e : Bool) (lines : List HostLine),
    compressLines (some S) l e = some lines → s.hostTodo = lines → s.busy = false → c.GrantsFrom s.draws →
    65536 * chunkCount S.length + 28 < 2 ^ c.lenBits → S.length < 2 ^ c.lenBits →
    ∃ t, Host.Core.run (coreWith c) (chunkCount S.length + 9) s = .next t ∧
      match bgzfEncode c S l e with
      | .ok bytes => t.hostSaw = .result bytes :: s.hostSaw
      | .error (err, off) => ∃ stage, t.hostSaw = .diagnostic err stage off :: s.hostSaw) ∧
  (∀ (c : Config) (s : State) (l : Int) (e : Bool) (lines : List HostLine),
    compressLines none l e = some lines → s.hostTodo = lines → s.busy = false →
    ∃ t, Host.Core.run (coreWith c) 4 s = .next t ∧
      t.hostSaw = .diagnostic .invalidArgument 1#3 0 :: s.hostSaw)

/-- 44_host_commands R108, R110: the pseudo-command `gzip_compress`, from any state with no command running, returns the
stream when its request is granted and the compressor answers, and the class of the failure when not; null content is
an invalid argument. The step counts 8 and 4 are those of the model's schedule of host lines and engine steps (log 1).
-/
def Obligations.GzipCompressReturnsTheStream : Prop :=
  (∀ (c : Config) (s : State) (S : List Byte) (l : Int) (lines : List HostLine),
    gzipCompressLines (some S) l = some lines → s.hostTodo = lines → s.busy = false →
    c.grants s.draws (S.length + 26) = true → S.length < 2 ^ c.lenBits →
    ∃ t, Host.Core.run (coreWith c) 8 s = .next t ∧
      match gzipEncode c S l with
      | .ok bytes => t.hostSaw = .result bytes :: s.hostSaw
      | .error err => ∃ stage, t.hostSaw = .diagnostic err stage 0 :: s.hostSaw) ∧
  (∀ (c : Config) (s : State) (l : Int) (lines : List HostLine),
    gzipCompressLines none l = some lines → s.hostTodo = lines → s.busy = false →
    ∃ t, Host.Core.run (coreWith c) 4 s = .next t ∧
      t.hostSaw = .diagnostic .invalidArgument 1#3 0 :: s.hostSaw)
end

