-- ==== Sys2Proof/Laws/Memory.lean ====
section
/-! SUPPORT. Laws of the byte memories: what `read`, `write`, `ofBytes` and `slice` give, and that every operation keeps
the canonical form. -/

namespace Sys2Proof.Machine

@[simp] theorem Memory.read_nil (a : Nat) : Memory.read [] a = none := rfl

theorem Memory.read_cons (x : Nat) (b : Byte) (m : Memory) (a : Nat) :
    Memory.read ((x, b) :: m) a = if x = a then some b else m.read a := rfl

theorem Memory.read_append (m₁ m₂ : Memory) (a : Nat) :
    Memory.read (m₁ ++ m₂) a = (m₁.read a).or (m₂.read a) := by
  induction m₁ with
  | nil => simp
  | cons p m ih =>
    obtain ⟨x, b⟩ := p
    by_cases h : x = a
    · simp [Memory.read_cons, h]
    · simpa [Memory.read_cons, h] using ih

/-- Filtering a memory by offset keeps what is read at the offsets kept and loses the others. -/
theorem Memory.read_filter (m : Memory) (p : Nat → Bool) (a : Nat) :
    Memory.read (m.filter (fun x => p x.1)) a = if p a then m.read a else none := by
  induction m with
  | nil => simp
  | cons q m ih =>
    obtain ⟨x, b⟩ := q
    by_cases hx : p x = true
    · by_cases h : x = a
      · subst h; simp [Memory.read_cons, hx]
      · simpa [List.filter_cons, Memory.read_cons, hx, h] using ih
    · by_cases h : x = a
      · subst h; simp [hx] at ih ⊢; exact ih
      · simpa [List.filter_cons, Memory.read_cons, hx, h] using ih

theorem Memory.read_ofBytes (bs : List Byte) (a x : Nat) :
    (Memory.ofBytes a bs).read x = if a ≤ x then bs[x - a]? else none := by
  induction bs generalizing a with
  | nil => simp [Memory.ofBytes]
  | cons b bs ih =>
    rw [Memory.ofBytes, Memory.read_cons, ih]
    by_cases h : a = x
    · simp [h]
    · by_cases h' : a ≤ x
      · rw [if_neg h, if_pos (by omega), if_pos h', show x - a = (x - (a + 1)) + 1 by omega]
        simp
      · rw [if_neg h, if_neg (by omega), if_neg h']

/-- What is read after a write: the written byte at a written offset, the old one elsewhere. -/
theorem Memory.read_write (m : Memory) (a : Nat) (bs : List Byte) (x : Nat) :
    (m.write a bs).read x = if a ≤ x ∧ x < a + bs.length then bs[x - a]? else m.read x := by
  have h1 := Memory.read_filter m (fun y => decide (y < a)) x
  have h2 := Memory.read_filter m (fun y => decide (a + bs.length ≤ y)) x
  rw [Memory.write, Memory.read_append, Memory.read_append, h1, h2, Memory.read_ofBytes]
  by_cases hlt : x < a
  · have : ¬ a + bs.length ≤ x := by omega
    simp [hlt, this, Nat.not_le.mpr hlt]
  · by_cases hin : x < a + bs.length
    · have : x - a < bs.length := by omega
      simp [hlt, hin, this, Nat.not_lt.mp hlt, Nat.not_le.mpr hin]
    · have : bs[x - a]? = none := List.getElem?_eq_none (by omega)
      simp [hlt, hin, this, Nat.not_lt.mp hlt, Nat.not_lt.mp hin]

theorem Memory.read_write_outside (m : Memory) (a : Nat) (bs : List Byte) (x : Nat)
    (h : x < a ∨ a + bs.length ≤ x) : (m.write a bs).read x = m.read x := by
  rw [Memory.read_write, if_neg (by omega)]

theorem Memory.read_write_inside (m : Memory) (a : Nat) (bs : List Byte) (i : Nat) (h : i < bs.length) :
    (m.write a bs).read (a + i) = bs[i]? := by
  rw [Memory.read_write, if_pos (by omega), Nat.add_sub_cancel_left]

theorem Memory.wf_nil : Memory.wf [] := List.Pairwise.nil

theorem Memory.offsets_ofBytes (bs : List Byte) (a : Nat) :
    ∀ p ∈ Memory.ofBytes a bs, a ≤ p.1 ∧ p.1 < a + bs.length := by
  induction bs generalizing a with
  | nil => simp [Memory.ofBytes]
  | cons b bs ih =>
    intro p hp
    simp only [Memory.ofBytes, List.mem_cons, List.length_cons] at hp ⊢
    obtain rfl | hp := hp
    · simp
    · have := ih (a + 1) p hp
      omega

theorem Memory.wf_ofBytes (bs : List Byte) (a : Nat) : (Memory.ofBytes a bs).wf := by
  induction bs generalizing a with
  | nil => exact Memory.wf_nil
  | cons b bs ih =>
    refine List.Pairwise.cons (fun p hp => ?_) (ih (a + 1))
    have := Memory.offsets_ofBytes bs (a + 1) p hp
    show a < p.1
    omega

/-- Writing keeps the canonical form. -/
theorem Memory.wf_write (m : Memory) (a : Nat) (bs : List Byte) (h : m.wf) : (m.write a bs).wf := by
  refine List.pairwise_append.mpr ⟨List.pairwise_append.mpr ⟨h.filter _, Memory.wf_ofBytes bs a, ?_⟩, h.filter _, ?_⟩
  · intro p hp q hq
    have h1 : p.1 < a := by simpa using (List.mem_filter.mp hp).2
    have h2 := Memory.offsets_ofBytes bs a q hq
    omega
  · intro p hp q hq
    have h2 : a + bs.length ≤ q.1 := by simpa using (List.mem_filter.mp hq).2
    rcases List.mem_append.mp hp with hp | hp
    · have h1 : p.1 < a := by simpa using (List.mem_filter.mp hp).2
      omega
    · have h1 := Memory.offsets_ofBytes bs a p hp
      omega

theorem Memory.wf_tail {p : Host.Cell} {m : Memory} (h : Memory.wf (p :: m)) : m.wf := (List.pairwise_cons.mp h).2

/-- In a canonical memory whose cells all lie above an offset, nothing is read at that offset. -/
theorem Memory.read_eq_none_of_lt (m : Memory) (a : Nat) (h : ∀ p ∈ m, a < p.1) : m.read a = none := by
  induction m with
  | nil => rfl
  | cons q m ih =>
    obtain ⟨x, b⟩ := q
    have hx : a < x := h (x, b) (by simp)
    rw [Memory.read_cons, if_neg (by omega)]
    exact ih (fun p hp => h p (by simp [hp]))

theorem Memory.sliceHere_eq_some (m : Memory) (a n : Nat) (bs : List Byte) (hm : m.wf) (ha : ∀ p ∈ m, a ≤ p.1) :
    m.sliceHere a n = some bs ↔ bs.length = n ∧ ∀ i < n, m.read (a + i) = bs[i]? := by
  induction m generalizing a n bs with
  | nil =>
    cases n with
    | zero => cases bs <;> simp [Memory.sliceHere]
    | succ n =>
      simp only [Memory.sliceHere, reduceCtorEq, Memory.read_nil, false_iff, not_and]
      intro hl hr
      have := hr 0 (by omega)
      rw [eq_comm, List.getElem?_eq_none_iff] at this
      omega
  | cons q m ih =>
    obtain ⟨x, b⟩ := q
    cases n with
    | zero => cases bs <;> simp [Memory.sliceHere]
    | succ n =>
      have hx : a ≤ x := ha (x, b) (by simp)
      have hup : ∀ p ∈ m, x < p.1 := (List.pairwise_cons.mp hm).1
      rw [Memory.sliceHere]
      by_cases h : x = a
      · subst h
        rw [if_pos rfl]
        have key := fun bs' => ih (x + 1) n bs' (Memory.wf_tail hm) (fun p hp => hup p hp)
        have step : ∀ i, Memory.read m (x + 1 + i) = Memory.read ((x, b) :: m) (x + (i + 1)) := by
          intro i
          rw [Memory.read_cons, if_neg (by omega), show x + 1 + i = x + (i + 1) by omega]
        constructor
        · intro hs
          cases hsl : Memory.sliceHere m (x + 1) n with
          | none => simp [hsl] at hs
          | some bs' =>
            simp only [hsl, Option.some.injEq] at hs
            subst hs
            obtain ⟨h1, h2⟩ := (key bs').mp hsl
            refine ⟨by simp [h1], fun i hi => ?_⟩
            cases i with
            | zero => simp [Memory.read_cons]
            | succ i => rw [← step, h2 i (by omega)]; simp
        · rintro ⟨h1, h2⟩
          cases bs with
          | nil => simp at h1
          | cons b' bs' =>
            have hb : b' = b := by
              have := h2 0 (by omega)
              simpa [Memory.read_cons, eq_comm] using this
            have := (key bs').mpr ⟨by simpa using h1, fun i hi => by
              rw [step, h2 (i + 1) (by omega)]; simp⟩
            rw [this, hb]
      · rw [if_neg h]
        simp only [reduceCtorEq, false_iff, not_and]
        intro hl hr
        have h0 := hr 0 (by omega)
        rw [Nat.add_zero, Memory.read_eq_none_of_lt _ _ (fun p hp => by
          rcases List.mem_cons.mp hp with rfl | hp
          · show a < x; omega
          · have := hup p hp; omega), eq_comm, List.getElem?_eq_none_iff] at h0
        omega

theorem Memory.read_dropWhile (m : Memory) (a x : Nat) (h : a ≤ x) :
    Memory.read (m.dropWhile (fun p => decide (p.1 < a))) x = m.read x := by
  induction m with
  | nil => rfl
  | cons q m ih =>
    obtain ⟨y, b⟩ := q
    by_cases hy : y < a
    · rw [List.dropWhile_cons_of_pos (by simpa using hy), ih, Memory.read_cons, if_neg (by omega)]
    · rw [List.dropWhile_cons_of_neg (by simpa using hy)]

/-- `IN[a..a+n)` is a byte sequence exactly when every offset of it holds that byte. -/
theorem Memory.slice_eq_some (m : Memory) (a n : Nat) (bs : List Byte) (hm : m.wf) :
    m.slice a n = some bs ↔ bs.length = n ∧ ∀ i < n, m.read (a + i) = bs[i]? := by
  have hsub : (m.dropWhile (fun p => decide (p.1 < a))).Sublist m := List.dropWhile_sublist _
  have hge : ∀ p ∈ m.dropWhile (fun p => decide (p.1 < a)), a ≤ p.1 := by
    have hwf : Memory.wf (m.dropWhile (fun p => decide (p.1 < a))) := hm.sublist hsub
    cases hd : m.dropWhile (fun p => decide (p.1 < a)) with
    | nil => simp
    | cons q r =>
      have hq : a ≤ q.1 := by
        have := List.head?_dropWhile_not (fun p : Host.Cell => decide (p.1 < a)) m
        rw [hd] at this
        simpa using this
      rw [hd] at hwf
      intro p hp
      rcases List.mem_cons.mp hp with rfl | hp
      · exact hq
      · have := (List.pairwise_cons.mp hwf).1 p hp; omega
  rw [Memory.slice, Memory.sliceHere_eq_some _ _ _ _ (hm.sublist hsub) hge]
  constructor
  · rintro ⟨h1, h2⟩
    exact ⟨h1, fun i hi => by rw [← h2 i hi, Memory.read_dropWhile _ _ _ (by omega)]⟩
  · rintro ⟨h1, h2⟩
    exact ⟨h1, fun i hi => by rw [Memory.read_dropWhile _ _ _ (by omega), h2 i hi]⟩

theorem Memory.slice_length {m : Memory} {a n : Nat} {bs : List Byte} (hm : m.wf) (h : m.slice a n = some bs) :
    bs.length = n := ((Memory.slice_eq_some m a n bs hm).mp h).1

/-- A slice is there exactly when each of its bytes is. -/
theorem Memory.slice_isSome {m : Memory} (hm : m.wf) (a n : Nat) :
    (m.slice a n).isSome = true ↔ ∀ i < n, (m.read (a + i)).isSome = true := by
  constructor
  · intro h i hi
    obtain ⟨bs, hb⟩ := Option.isSome_iff_exists.mp h
    obtain ⟨hl, hr⟩ := (Memory.slice_eq_some m a n bs hm).mp hb
    rw [hr i hi, List.getElem?_eq_getElem (by omega)]
    rfl
  · intro h
    have hb : m.slice a n = some ((List.range n).map fun i => (m.read (a + i)).getD 0#8) := by
      rw [Memory.slice_eq_some _ _ _ _ hm]
      refine ⟨by simp, fun i hi => ?_⟩
      obtain ⟨b, hb⟩ := Option.isSome_iff_exists.mp (h i hi)
      simp [hb, hi]
    rw [hb]
    rfl

@[simp] theorem Memory.slice_zero (m : Memory) (a : Nat) : m.slice a 0 = some [] := by
  unfold Memory.slice
  generalize m.dropWhile _ = d
  cases d <;> rfl

/-- A slice of a slice: the chunk cut from a supplied input. -/
theorem Memory.slice_sub {m : Memory} {a n : Nat} {bs : List Byte} (hm : m.wf) (h : m.slice a n = some bs)
    (i k : Nat) (hik : i + k ≤ n) : m.slice (a + i) k = some ((bs.drop i).take k) := by
  obtain ⟨h1, h2⟩ := (Memory.slice_eq_some m a n bs hm).mp h
  refine (Memory.slice_eq_some m _ _ _ hm).mpr ⟨?_, fun j hj => ?_⟩
  · simp only [List.length_take, List.length_drop]; omega
  · rw [Nat.add_assoc, h2 (i + j) (by omega), List.getElem?_take, if_pos hj, List.getElem?_drop]

end Sys2Proof.Machine
end

