-- ==== Sys2Proof/Laws/State.lean ====
section
/-! SUPPORT. What each named update of the state does to each field: one lemma a field, so that no later proof unfolds
an update. -/

namespace Sys2Proof.Machine

/-! `append` (20_memory R34) -/

@[simp] theorem State.append_level (s : State) (bs : List Byte) : (s.append bs).level = s.level := rfl
@[simp] theorem State.append_inLen (s : State) (bs : List Byte) : (s.append bs).inLen = s.inLen := rfl
@[simp] theorem State.append_cap (s : State) (bs : List Byte) : (s.append bs).cap = s.cap := rfl
@[simp] theorem State.append_outLen (s : State) (bs : List Byte) : (s.append bs).outLen = s.outLen + bs.length := rfl
@[simp] theorem State.append_errOffset (s : State) (bs : List Byte) : (s.append bs).errOffset = s.errOffset := rfl
@[simp] theorem State.append_cmdL (s : State) (bs : List Byte) : (s.append bs).cmdL = s.cmdL := rfl
@[simp] theorem State.append_lvlL (s : State) (bs : List Byte) : (s.append bs).lvlL = s.lvlL := rfl
@[simp] theorem State.append_nL (s : State) (bs : List Byte) : (s.append bs).nL = s.nL := rfl
@[simp] theorem State.append_capL (s : State) (bs : List Byte) : (s.append bs).capL = s.capL := rfl
@[simp] theorem State.append_seq (s : State) (bs : List Byte) : (s.append bs).seq = s.seq := rfl
@[simp] theorem State.append_err (s : State) (bs : List Byte) : (s.append bs).err = s.err := rfl
@[simp] theorem State.append_stage (s : State) (bs : List Byte) : (s.append bs).stage = s.stage := rfl
@[simp] theorem State.append_off (s : State) (bs : List Byte) : (s.append bs).off = s.off := rfl
@[simp] theorem State.append_outCap (s : State) (bs : List Byte) : (s.append bs).outCap = s.outCap := rfl
@[simp] theorem State.append_isizeR (s : State) (bs : List Byte) : (s.append bs).isizeR = s.isizeR := rfl
@[simp] theorem State.append_plen (s : State) (bs : List Byte) : (s.append bs).plen = s.plen := rfl
@[simp] theorem State.append_blen (s : State) (bs : List Byte) : (s.append bs).blen = s.blen := rfl
@[simp] theorem State.append_crcAcc (s : State) (bs : List Byte) : (s.append bs).crcAcc = s.crcAcc := rfl
@[simp] theorem State.append_input (s : State) (bs : List Byte) : (s.append bs).input = s.input := rfl
@[simp] theorem State.append_out (s : State) (bs : List Byte) : (s.append bs).out = s.out.write s.outLen bs := rfl
@[simp] theorem State.append_hostTodo (s : State) (bs : List Byte) : (s.append bs).hostTodo = s.hostTodo := rfl
@[simp] theorem State.append_hostSaw (s : State) (bs : List Byte) : (s.append bs).hostSaw = s.hostSaw := rfl
@[simp] theorem State.append_draws (s : State) (bs : List Byte) : (s.append bs).draws = s.draws := rfl

/-! a free draw (the model's own count) -/

@[simp] theorem State.drawn_level (s : State) : (s.drawn).level = s.level := rfl
@[simp] theorem State.drawn_inLen (s : State) : (s.drawn).inLen = s.inLen := rfl
@[simp] theorem State.drawn_cap (s : State) : (s.drawn).cap = s.cap := rfl
@[simp] theorem State.drawn_outLen (s : State) : (s.drawn).outLen = s.outLen := rfl
@[simp] theorem State.drawn_errOffset (s : State) : (s.drawn).errOffset = s.errOffset := rfl
@[simp] theorem State.drawn_cmdL (s : State) : (s.drawn).cmdL = s.cmdL := rfl
@[simp] theorem State.drawn_lvlL (s : State) : (s.drawn).lvlL = s.lvlL := rfl
@[simp] theorem State.drawn_nL (s : State) : (s.drawn).nL = s.nL := rfl
@[simp] theorem State.drawn_capL (s : State) : (s.drawn).capL = s.capL := rfl
@[simp] theorem State.drawn_seq (s : State) : (s.drawn).seq = s.seq := rfl
@[simp] theorem State.drawn_err (s : State) : (s.drawn).err = s.err := rfl
@[simp] theorem State.drawn_stage (s : State) : (s.drawn).stage = s.stage := rfl
@[simp] theorem State.drawn_off (s : State) : (s.drawn).off = s.off := rfl
@[simp] theorem State.drawn_outCap (s : State) : (s.drawn).outCap = s.outCap := rfl
@[simp] theorem State.drawn_isizeR (s : State) : (s.drawn).isizeR = s.isizeR := rfl
@[simp] theorem State.drawn_plen (s : State) : (s.drawn).plen = s.plen := rfl
@[simp] theorem State.drawn_blen (s : State) : (s.drawn).blen = s.blen := rfl
@[simp] theorem State.drawn_crcAcc (s : State) : (s.drawn).crcAcc = s.crcAcc := rfl
@[simp] theorem State.drawn_input (s : State) : (s.drawn).input = s.input := rfl
@[simp] theorem State.drawn_out (s : State) : (s.drawn).out = s.out := rfl
@[simp] theorem State.drawn_hostTodo (s : State) : (s.drawn).hostTodo = s.hostTodo := rfl
@[simp] theorem State.drawn_hostSaw (s : State) : (s.drawn).hostSaw = s.hostSaw := rfl
@[simp] theorem State.drawn_draws (s : State) : (s.drawn).draws = s.draws + 1 := rfl

/-! `fail(e, off)` (60_exceptions R118) -/

@[simp] theorem State.failWith_level (s : State) (e : ErrClass) (o : Nat) : (s.failWith e o).level = s.level := rfl
@[simp] theorem State.failWith_inLen (s : State) (e : ErrClass) (o : Nat) : (s.failWith e o).inLen = s.inLen := rfl
@[simp] theorem State.failWith_cap (s : State) (e : ErrClass) (o : Nat) : (s.failWith e o).cap = s.cap := rfl
@[simp] theorem State.failWith_outLen (s : State) (e : ErrClass) (o : Nat) : (s.failWith e o).outLen = 0 := rfl
@[simp] theorem State.failWith_errOffset (s : State) (e : ErrClass) (o : Nat) : (s.failWith e o).errOffset = o := rfl
@[simp] theorem State.failWith_cmdL (s : State) (e : ErrClass) (o : Nat) : (s.failWith e o).cmdL = s.cmdL := rfl
@[simp] theorem State.failWith_lvlL (s : State) (e : ErrClass) (o : Nat) : (s.failWith e o).lvlL = s.lvlL := rfl
@[simp] theorem State.failWith_nL (s : State) (e : ErrClass) (o : Nat) : (s.failWith e o).nL = s.nL := rfl
@[simp] theorem State.failWith_capL (s : State) (e : ErrClass) (o : Nat) : (s.failWith e o).capL = s.capL := rfl
@[simp] theorem State.failWith_seq (s : State) (e : ErrClass) (o : Nat) : (s.failWith e o).seq = .fail := rfl
@[simp] theorem State.failWith_err (s : State) (e : ErrClass) (o : Nat) : (s.failWith e o).err = e := rfl
@[simp] theorem State.failWith_stage (s : State) (e : ErrClass) (o : Nat) : (s.failWith e o).stage = s.seq.code := rfl
@[simp] theorem State.failWith_off (s : State) (e : ErrClass) (o : Nat) : (s.failWith e o).off = s.off := rfl
@[simp] theorem State.failWith_outCap (s : State) (e : ErrClass) (o : Nat) : (s.failWith e o).outCap = 0 := rfl
@[simp] theorem State.failWith_isizeR (s : State) (e : ErrClass) (o : Nat) : (s.failWith e o).isizeR = s.isizeR := rfl
@[simp] theorem State.failWith_plen (s : State) (e : ErrClass) (o : Nat) : (s.failWith e o).plen = s.plen := rfl
@[simp] theorem State.failWith_blen (s : State) (e : ErrClass) (o : Nat) : (s.failWith e o).blen = s.blen := rfl
@[simp] theorem State.failWith_crcAcc (s : State) (e : ErrClass) (o : Nat) : (s.failWith e o).crcAcc = s.crcAcc := rfl
@[simp] theorem State.failWith_input (s : State) (e : ErrClass) (o : Nat) : (s.failWith e o).input = s.input := rfl
@[simp] theorem State.failWith_out (s : State) (e : ErrClass) (o : Nat) : (s.failWith e o).out = s.out := rfl
@[simp] theorem State.failWith_hostTodo (s : State) (e : ErrClass) (o : Nat) : (s.failWith e o).hostTodo = s.hostTodo := rfl
@[simp] theorem State.failWith_hostSaw (s : State) (e : ErrClass) (o : Nat) : (s.failWith e o).hostSaw = s.hostSaw := rfl
@[simp] theorem State.failWith_draws (s : State) (e : ErrClass) (o : Nat) : (s.failWith e o).draws = s.draws := rfl

/-! the failed state of claims -/

@[simp] theorem State.failedAt_level (s : State) (e : ErrClass) (k : BitVec 3) (o : Nat) : (s.failedAt e k o).level = s.level := rfl
@[simp] theorem State.failedAt_inLen (s : State) (e : ErrClass) (k : BitVec 3) (o : Nat) : (s.failedAt e k o).inLen = s.inLen := rfl
@[simp] theorem State.failedAt_cap (s : State) (e : ErrClass) (k : BitVec 3) (o : Nat) : (s.failedAt e k o).cap = s.cap := rfl
@[simp] theorem State.failedAt_outLen (s : State) (e : ErrClass) (k : BitVec 3) (o : Nat) : (s.failedAt e k o).outLen = 0 := rfl
@[simp] theorem State.failedAt_errOffset (s : State) (e : ErrClass) (k : BitVec 3) (o : Nat) : (s.failedAt e k o).errOffset = o := rfl
@[simp] theorem State.failedAt_cmdL (s : State) (e : ErrClass) (k : BitVec 3) (o : Nat) : (s.failedAt e k o).cmdL = s.cmdL := rfl
@[simp] theorem State.failedAt_lvlL (s : State) (e : ErrClass) (k : BitVec 3) (o : Nat) : (s.failedAt e k o).lvlL = s.lvlL := rfl
@[simp] theorem State.failedAt_nL (s : State) (e : ErrClass) (k : BitVec 3) (o : Nat) : (s.failedAt e k o).nL = s.nL := rfl
@[simp] theorem State.failedAt_capL (s : State) (e : ErrClass) (k : BitVec 3) (o : Nat) : (s.failedAt e k o).capL = s.capL := rfl
@[simp] theorem State.failedAt_seq (s : State) (e : ErrClass) (k : BitVec 3) (o : Nat) : (s.failedAt e k o).seq = .fail := rfl
@[simp] theorem State.failedAt_err (s : State) (e : ErrClass) (k : BitVec 3) (o : Nat) : (s.failedAt e k o).err = e := rfl
@[simp] theorem State.failedAt_stage (s : State) (e : ErrClass) (k : BitVec 3) (o : Nat) : (s.failedAt e k o).stage = k := rfl
@[simp] theorem State.failedAt_off (s : State) (e : ErrClass) (k : BitVec 3) (o : Nat) : (s.failedAt e k o).off = s.off := rfl
@[simp] theorem State.failedAt_outCap (s : State) (e : ErrClass) (k : BitVec 3) (o : Nat) : (s.failedAt e k o).outCap = 0 := rfl
@[simp] theorem State.failedAt_isizeR (s : State) (e : ErrClass) (k : BitVec 3) (o : Nat) : (s.failedAt e k o).isizeR = s.isizeR := rfl
@[simp] theorem State.failedAt_plen (s : State) (e : ErrClass) (k : BitVec 3) (o : Nat) : (s.failedAt e k o).plen = s.plen := rfl
@[simp] theorem State.failedAt_blen (s : State) (e : ErrClass) (k : BitVec 3) (o : Nat) : (s.failedAt e k o).blen = s.blen := rfl
@[simp] theorem State.failedAt_crcAcc (s : State) (e : ErrClass) (k : BitVec 3) (o : Nat) : (s.failedAt e k o).crcAcc = s.crcAcc := rfl
@[simp] theorem State.failedAt_input (s : State) (e : ErrClass) (k : BitVec 3) (o : Nat) : (s.failedAt e k o).input = s.input := rfl
@[simp] theorem State.failedAt_out (s : State) (e : ErrClass) (k : BitVec 3) (o : Nat) : (s.failedAt e k o).out = s.out := rfl
@[simp] theorem State.failedAt_hostTodo (s : State) (e : ErrClass) (k : BitVec 3) (o : Nat) : (s.failedAt e k o).hostTodo = s.hostTodo := rfl
@[simp] theorem State.failedAt_hostSaw (s : State) (e : ErrClass) (k : BitVec 3) (o : Nat) : (s.failedAt e k o).hostSaw = s.hostSaw := rfl
@[simp] theorem State.failedAt_draws (s : State) (e : ErrClass) (k : BitVec 3) (o : Nat) : (s.failedAt e k o).draws = s.draws := rfl

/-! START (44_host_commands R103) -/

@[simp] theorem State.start_level (s : State) (w : Word) : (s.start w).level = s.level := rfl
@[simp] theorem State.start_inLen (s : State) (w : Word) : (s.start w).inLen = s.inLen := rfl
@[simp] theorem State.start_cap (s : State) (w : Word) : (s.start w).cap = s.cap := rfl
@[simp] theorem State.start_outLen (s : State) (w : Word) : (s.start w).outLen = 0 := rfl
@[simp] theorem State.start_errOffset (s : State) (w : Word) : (s.start w).errOffset = 0 := rfl
@[simp] theorem State.start_cmdL (s : State) (w : Word) : (s.start w).cmdL = w := rfl
@[simp] theorem State.start_lvlL (s : State) (w : Word) : (s.start w).lvlL = s.level := rfl
@[simp] theorem State.start_nL (s : State) (w : Word) : (s.start w).nL = s.inLen := rfl
@[simp] theorem State.start_capL (s : State) (w : Word) : (s.start w).capL = s.cap := rfl
@[simp] theorem State.start_seq (s : State) (w : Word) : (s.start w).seq = .validate := rfl
@[simp] theorem State.start_err (s : State) (w : Word) : (s.start w).err = .none := rfl
@[simp] theorem State.start_stage (s : State) (w : Word) : (s.start w).stage = 0#3 := rfl
@[simp] theorem State.start_off (s : State) (w : Word) : (s.start w).off = 0 := rfl
@[simp] theorem State.start_outCap (s : State) (w : Word) : (s.start w).outCap = 0 := rfl
@[simp] theorem State.start_isizeR (s : State) (w : Word) : (s.start w).isizeR = s.isizeR := rfl
@[simp] theorem State.start_plen (s : State) (w : Word) : (s.start w).plen = s.plen := rfl
@[simp] theorem State.start_blen (s : State) (w : Word) : (s.start w).blen = s.blen := rfl
@[simp] theorem State.start_crcAcc (s : State) (w : Word) : (s.start w).crcAcc = s.crcAcc := rfl
@[simp] theorem State.start_input (s : State) (w : Word) : (s.start w).input = s.input := rfl
@[simp] theorem State.start_out (s : State) (w : Word) : (s.start w).out = [] := rfl
@[simp] theorem State.start_hostTodo (s : State) (w : Word) : (s.start w).hostTodo = s.hostTodo := rfl
@[simp] theorem State.start_hostSaw (s : State) (w : Word) : (s.start w).hostSaw = s.hostSaw := rfl
@[simp] theorem State.start_draws (s : State) (w : Word) : (s.start w).draws = s.draws := rfl

/-! the reset input (70_reset_and_hazards R131) -/

@[simp] theorem State.hardwareReset_level (s : State) : (s.hardwareReset).level = 9#32 := rfl
@[simp] theorem State.hardwareReset_inLen (s : State) : (s.hardwareReset).inLen = 0 := rfl
@[simp] theorem State.hardwareReset_cap (s : State) : (s.hardwareReset).cap = 65536 := rfl
@[simp] theorem State.hardwareReset_outLen (s : State) : (s.hardwareReset).outLen = 0 := rfl
@[simp] theorem State.hardwareReset_errOffset (s : State) : (s.hardwareReset).errOffset = 0 := rfl
@[simp] theorem State.hardwareReset_cmdL (s : State) : (s.hardwareReset).cmdL = 0#32 := rfl
@[simp] theorem State.hardwareReset_lvlL (s : State) : (s.hardwareReset).lvlL = 9#32 := rfl
@[simp] theorem State.hardwareReset_nL (s : State) : (s.hardwareReset).nL = 0 := rfl
@[simp] theorem State.hardwareReset_capL (s : State) : (s.hardwareReset).capL = 65536 := rfl
@[simp] theorem State.hardwareReset_seq (s : State) : (s.hardwareReset).seq = .idle := rfl
@[simp] theorem State.hardwareReset_err (s : State) : (s.hardwareReset).err = .none := rfl
@[simp] theorem State.hardwareReset_stage (s : State) : (s.hardwareReset).stage = 0#3 := rfl
@[simp] theorem State.hardwareReset_off (s : State) : (s.hardwareReset).off = 0 := rfl
@[simp] theorem State.hardwareReset_outCap (s : State) : (s.hardwareReset).outCap = 0 := rfl
@[simp] theorem State.hardwareReset_isizeR (s : State) : (s.hardwareReset).isizeR = 0#17 := rfl
@[simp] theorem State.hardwareReset_plen (s : State) : (s.hardwareReset).plen = 0#17 := rfl
@[simp] theorem State.hardwareReset_blen (s : State) : (s.hardwareReset).blen = 0#17 := rfl
@[simp] theorem State.hardwareReset_crcAcc (s : State) : (s.hardwareReset).crcAcc = 0#32 := rfl
@[simp] theorem State.hardwareReset_input (s : State) : (s.hardwareReset).input = s.input := rfl
@[simp] theorem State.hardwareReset_out (s : State) : (s.hardwareReset).out = [] := rfl
@[simp] theorem State.hardwareReset_hostTodo (s : State) : (s.hardwareReset).hostTodo = s.hostTodo := rfl
@[simp] theorem State.hardwareReset_hostSaw (s : State) : (s.hardwareReset).hostSaw = s.hostSaw := rfl
@[simp] theorem State.hardwareReset_draws (s : State) : (s.hardwareReset).draws = s.draws := rfl

/-! forgetting the temporaries (10_state R26, R27) -/

@[simp] theorem State.forgetTemporaries_level (s : State) : (s.forgetTemporaries).level = s.level := rfl
@[simp] theorem State.forgetTemporaries_inLen (s : State) : (s.forgetTemporaries).inLen = s.inLen := rfl
@[simp] theorem State.forgetTemporaries_cap (s : State) : (s.forgetTemporaries).cap = s.cap := rfl
@[simp] theorem State.forgetTemporaries_outLen (s : State) : (s.forgetTemporaries).outLen = s.outLen := rfl
@[simp] theorem State.forgetTemporaries_errOffset (s : State) : (s.forgetTemporaries).errOffset = s.errOffset := rfl
@[simp] theorem State.forgetTemporaries_cmdL (s : State) : (s.forgetTemporaries).cmdL = s.cmdL := rfl
@[simp] theorem State.forgetTemporaries_lvlL (s : State) : (s.forgetTemporaries).lvlL = s.lvlL := rfl
@[simp] theorem State.forgetTemporaries_nL (s : State) : (s.forgetTemporaries).nL = s.nL := rfl
@[simp] theorem State.forgetTemporaries_capL (s : State) : (s.forgetTemporaries).capL = s.capL := rfl
@[simp] theorem State.forgetTemporaries_seq (s : State) : (s.forgetTemporaries).seq = s.seq := rfl
@[simp] theorem State.forgetTemporaries_err (s : State) : (s.forgetTemporaries).err = s.err := rfl
@[simp] theorem State.forgetTemporaries_stage (s : State) : (s.forgetTemporaries).stage = s.stage := rfl
@[simp] theorem State.forgetTemporaries_off (s : State) : (s.forgetTemporaries).off = s.off := rfl
@[simp] theorem State.forgetTemporaries_outCap (s : State) : (s.forgetTemporaries).outCap = s.outCap := rfl
@[simp] theorem State.forgetTemporaries_isizeR (s : State) : (s.forgetTemporaries).isizeR = 0#17 := rfl
@[simp] theorem State.forgetTemporaries_plen (s : State) : (s.forgetTemporaries).plen = 0#17 := rfl
@[simp] theorem State.forgetTemporaries_blen (s : State) : (s.forgetTemporaries).blen = 0#17 := rfl
@[simp] theorem State.forgetTemporaries_crcAcc (s : State) : (s.forgetTemporaries).crcAcc = 0#32 := rfl
@[simp] theorem State.forgetTemporaries_input (s : State) : (s.forgetTemporaries).input = s.input := rfl
@[simp] theorem State.forgetTemporaries_out (s : State) : (s.forgetTemporaries).out = s.out := rfl
@[simp] theorem State.forgetTemporaries_hostTodo (s : State) : (s.forgetTemporaries).hostTodo = s.hostTodo := rfl
@[simp] theorem State.forgetTemporaries_hostSaw (s : State) : (s.forgetTemporaries).hostSaw = s.hostSaw := rfl
@[simp] theorem State.forgetTemporaries_draws (s : State) : (s.forgetTemporaries).draws = s.draws := rfl

/-! the registers `compress_block` writes (41_block_compressor R72): nothing but the four temporaries -/

/-- `blockTemporaries` shows only in the four temporaries. -/
theorem State.blockTemporaries_forget (s : State) (c : Config) (ch : List Byte) (l : Int) (cap : Nat) :
    (s.blockTemporaries c ch l cap).forgetTemporaries = s.forgetTemporaries := by
  unfold State.blockTemporaries
  split
  · rfl
  · split <;> rfl

@[simp] theorem State.blockTemporaries_level (s : State) (c : Config) (ch : List Byte) (l : Int) (n : Nat) :
    (s.blockTemporaries c ch l n).level = s.level :=
  by simpa using congrArg State.level (s.blockTemporaries_forget c ch l n)
@[simp] theorem State.blockTemporaries_inLen (s : State) (c : Config) (ch : List Byte) (l : Int) (n : Nat) :
    (s.blockTemporaries c ch l n).inLen = s.inLen :=
  by simpa using congrArg State.inLen (s.blockTemporaries_forget c ch l n)
@[simp] theorem State.blockTemporaries_cap (s : State) (c : Config) (ch : List Byte) (l : Int) (n : Nat) :
    (s.blockTemporaries c ch l n).cap = s.cap :=
  by simpa using congrArg State.cap (s.blockTemporaries_forget c ch l n)
@[simp] theorem State.blockTemporaries_outLen (s : State) (c : Config) (ch : List Byte) (l : Int) (n : Nat) :
    (s.blockTemporaries c ch l n).outLen = s.outLen :=
  by simpa using congrArg State.outLen (s.blockTemporaries_forget c ch l n)
@[simp] theorem State.blockTemporaries_errOffset (s : State) (c : Config) (ch : List Byte) (l : Int) (n : Nat) :
    (s.blockTemporaries c ch l n).errOffset = s.errOffset :=
  by simpa using congrArg State.errOffset (s.blockTemporaries_forget c ch l n)
@[simp] theorem State.blockTemporaries_cmdL (s : State) (c : Config) (ch : List Byte) (l : Int) (n : Nat) :
    (s.blockTemporaries c ch l n).cmdL = s.cmdL :=
  by simpa using congrArg State.cmdL (s.blockTemporaries_forget c ch l n)
@[simp] theorem State.blockTemporaries_lvlL (s : State) (c : Config) (ch : List Byte) (l : Int) (n : Nat) :
    (s.blockTemporaries c ch l n).lvlL = s.lvlL :=
  by simpa using congrArg State.lvlL (s.blockTemporaries_forget c ch l n)
@[simp] theorem State.blockTemporaries_nL (s : State) (c : Config) (ch : List Byte) (l : Int) (n : Nat) :
    (s.blockTemporaries c ch l n).nL = s.nL :=
  by simpa using congrArg State.nL (s.blockTemporaries_forget c ch l n)
@[simp] theorem State.blockTemporaries_capL (s : State) (c : Config) (ch : List Byte) (l : Int) (n : Nat) :
    (s.blockTemporaries c ch l n).capL = s.capL :=
  by simpa using congrArg State.capL (s.blockTemporaries_forget c ch l n)
@[simp] theorem State.blockTemporaries_seq (s : State) (c : Config) (ch : List Byte) (l : Int) (n : Nat) :
    (s.blockTemporaries c ch l n).seq = s.seq :=
  by simpa using congrArg State.seq (s.blockTemporaries_forget c ch l n)
@[simp] theorem State.blockTemporaries_err (s : State) (c : Config) (ch : List Byte) (l : Int) (n : Nat) :
    (s.blockTemporaries c ch l n).err = s.err :=
  by simpa using congrArg State.err (s.blockTemporaries_forget c ch l n)
@[simp] theorem State.blockTemporaries_stage (s : State) (c : Config) (ch : List Byte) (l : Int) (n : Nat) :
    (s.blockTemporaries c ch l n).stage = s.stage :=
  by simpa using congrArg State.stage (s.blockTemporaries_forget c ch l n)
@[simp] theorem State.blockTemporaries_off (s : State) (c : Config) (ch : List Byte) (l : Int) (n : Nat) :
    (s.blockTemporaries c ch l n).off = s.off :=
  by simpa using congrArg State.off (s.blockTemporaries_forget c ch l n)
@[simp] theorem State.blockTemporaries_outCap (s : State) (c : Config) (ch : List Byte) (l : Int) (n : Nat) :
    (s.blockTemporaries c ch l n).outCap = s.outCap :=
  by simpa using congrArg State.outCap (s.blockTemporaries_forget c ch l n)
@[simp] theorem State.blockTemporaries_input (s : State) (c : Config) (ch : List Byte) (l : Int) (n : Nat) :
    (s.blockTemporaries c ch l n).input = s.input :=
  by simpa using congrArg State.input (s.blockTemporaries_forget c ch l n)
@[simp] theorem State.blockTemporaries_out (s : State) (c : Config) (ch : List Byte) (l : Int) (n : Nat) :
    (s.blockTemporaries c ch l n).out = s.out :=
  by simpa using congrArg State.out (s.blockTemporaries_forget c ch l n)
@[simp] theorem State.blockTemporaries_hostTodo (s : State) (c : Config) (ch : List Byte) (l : Int) (n : Nat) :
    (s.blockTemporaries c ch l n).hostTodo = s.hostTodo :=
  by simpa using congrArg State.hostTodo (s.blockTemporaries_forget c ch l n)
@[simp] theorem State.blockTemporaries_hostSaw (s : State) (c : Config) (ch : List Byte) (l : Int) (n : Nat) :
    (s.blockTemporaries c ch l n).hostSaw = s.hostSaw :=
  by simpa using congrArg State.hostSaw (s.blockTemporaries_forget c ch l n)
@[simp] theorem State.blockTemporaries_draws (s : State) (c : Config) (ch : List Byte) (l : Int) (n : Nat) :
    (s.blockTemporaries c ch l n).draws = s.draws :=
  by simpa using congrArg State.draws (s.blockTemporaries_forget c ch l n)

/-! derived fields -/

theorem State.levelL_eq (s : State) : s.levelL = sint32 s.lvlL := rfl

theorem State.remaining_eq (s : State) : s.remaining = s.nL - s.off := rfl

theorem State.chunkSize_eq (s : State) : s.chunkSize = min (s.nL - s.off) 65280 := rfl

theorem State.inputSupplied_eq (s : State) (w : Word) :
    s.inputSupplied w = (nullField w || (s.input.slice 0 s.inLen).isSome) := rfl

theorem State.busy_eq (s : State) : s.busy = s.seq.busy := rfl

/-- The failure entry of a step in a known sequencer state is the failed state with that state's code. -/
theorem State.failWith_eq_failedAt (s : State) (e : ErrClass) (o : Nat) :
    s.failWith e o = s.failedAt e s.seq.code o := rfl

/-- `sint32` is the two's-complement value of the word (00_scope R13). -/
theorem sint32_eq_toInt (w : Word) : sint32 w = w.toInt := by
  unfold sint32
  rw [BitVec.toInt_eq_toNat_cond]
  split <;> split <;> omega

end Sys2Proof.Machine
end

