-- ==== Sys2Proof/Laws/Block.lean ====
section
/-! SUPPORT. Laws of the ports and of `compress_block`: what a port can answer, and what a block can be. -/

namespace Sys2Proof

/-- What a successful `DEFLATE` answer is (40_collaborator_ports R62). -/
theorem Config.deflate_contract {c : Config} {ch p : List Byte} {l : Int} {sp : Nat}
    (h : c.deflate ch l sp = some p) : levelLegal l = true ∧ 1 ≤ p.length ∧ p.length ≤ sp := by
  unfold Config.deflate at h
  split at h
  · cases h
  · split at h
    · cases h; assumption
    · cases h

/-- What a successful `GZIPSTREAM` answer is (40_collaborator_ports R67). -/
theorem Config.gzipStream_contract {c : Config} {i g : List Byte} {l : Int} {sp : Nat}
    (h : c.gzipStream i l sp = some g) : 1 ≤ g.length ∧ g.length ≤ sp := by
  unfold Config.gzipStream at h
  split at h
  · cases h
  · split at h
    · cases h; assumption
    · cases h

/-- A granted request fits the registers (40_collaborator_ports R68). -/
theorem Config.lt_of_grants {c : Config} {k n : Nat} (h : c.grants k n = true) : n < 2 ^ c.lenBits := by
  simp only [Config.grants, Bool.and_eq_true, decide_eq_true_eq] at h
  exact h.1

theorem Config.two_pow_17_le (c : Config) : 2 ^ 17 ≤ 2 ^ c.lenBits :=
  Nat.pow_le_pow_right (by omega) (by unfold Config.lenBits; omega)

theorem levelLegal_iff (l : Int) : levelLegal l = true ↔ -1 ≤ l ∧ l ≤ 9 := by
  simp [levelLegal]

namespace Machine

@[simp] theorem le16_length (v : Nat) : (le16 v).length = 2 := rfl

@[simp] theorem le32_length (v : Nat) : (le32 v).length = 4 := rfl

@[simp] theorem hdr16_length : hdr16.length = 16 := rfl

@[simp] theorem eofMarker_length : eofMarker.length = 28 := rfl

/-- `BLEN = PLEN + 26` (30_encoding R48). -/
@[simp] theorem frame_length (p : List Byte) (crc : Word) (n : Nat) : (frame p crc n).length = p.length + 26 := by
  simp only [frame, List.length_append, hdr16_length, le16_length, le32_length]
  omega

/-- The zero-length case (41_block_compressor R73). -/
theorem compressBlock_nil (c : Config) (l : Int) (cap : Nat) :
    compressBlock c [] l cap = if cap < 28 then none else some eofMarker := rfl

/-- The general case (41_block_compressor R74, R75). -/
theorem compressBlock_general (c : Config) {ch : List Byte} (h : ch ≠ []) (l : Int) (cap : Nat) :
    compressBlock c ch l cap =
      (c.deflate ch l (cap - 26)).map fun p => frame p (c.crc32 ch) ch.length := by
  have h' : ch.length ≠ 0 := by simpa using h
  rw [compressBlock, if_neg h']
  cases c.deflate ch l (cap - 26) <;> rfl

/-- What a successful `compress_block` is: in the zero-length case the marker, in the general case the frame of a
payload that `DEFLATE` answered. -/
theorem compressBlock_cases {c : Config} {ch b : List Byte} {l : Int} {cap : Nat}
    (h : compressBlock c ch l cap = some b) :
    (ch = [] ∧ 28 ≤ cap ∧ b = eofMarker) ∨
      (ch ≠ [] ∧ ∃ p, c.deflate ch l (cap - 26) = some p ∧ b = frame p (c.crc32 ch) ch.length) := by
  by_cases hc : ch = []
  · subst hc
    rw [compressBlock_nil] at h
    split at h
    · cases h
    · cases h; exact .inl ⟨rfl, by omega, rfl⟩
  · rw [compressBlock_general c hc] at h
    obtain ⟨p, hp, rfl⟩ := Option.map_eq_some_iff.mp h
    exact .inr ⟨hc, p, hp, rfl⟩

/-- The length of a block never passes the capacity (41_block_compressor R72). -/
theorem compressBlock_length {c : Config} {ch b : List Byte} {l : Int} {cap : Nat}
    (h : compressBlock c ch l cap = some b) : 27 ≤ b.length ∧ b.length ≤ cap := by
  obtain ⟨-, hcap, rfl⟩ | ⟨-, p, hp, rfl⟩ := compressBlock_cases h
  · simp only [eofMarker_length]; omega
  · have := Config.deflate_contract hp
    rw [frame_length]; omega

/-- In the general case an illegal level is a failure of the compressor (41_block_compressor R78). -/
theorem compressBlock_illegal_level {c : Config} {ch : List Byte} (hc : ch ≠ []) {l : Int}
    (hl : ¬(-1 ≤ l ∧ l ≤ 9)) (cap : Nat) : compressBlock c ch l cap = none := by
  rw [compressBlock_general c hc]
  cases h : c.deflate ch l (cap - 26) with
  | none => rfl
  | some p => exact absurd ((levelLegal_iff l).mp (Config.deflate_contract h).1) hl

end Machine

end Sys2Proof
end

