-- ==== Sys2Proof/Laws/Steps.lean ====
section
/-! SUPPORT. What each step of the engine and each action of the host can do, said once: the later proofs cite these
and do not unfold the steps. -/

namespace Sys2Proof.Machine

/-- `exec` is the configured meaning at the hardware's configuration. -/
theorem exec_eq_execWith (i : Instr) (s : State) : exec i s = execWith Config.hw i s := by
  cases i <;> rfl

/-- The step of `S_BLOCK`: a refusal for missing input, a failure, or the block appended. -/
theorem stepBlock_cases (c : Config) (s : State) :
    (s.input.slice 0 s.nL = none ∧ stepBlock c s = .refused .inputNotSupplied) ∨
      ∃ ch, s.input.slice 0 s.nL = some ch ∧
        ((compressBlock c ch s.levelL s.capL = none ∧
            ∃ t, stepBlock c s = .next t ∧
              t.forgetTemporaries = (s.failedAt .compressFailed s.seq.code 0).forgetTemporaries) ∨
          ∃ b, compressBlock c ch s.levelL s.capL = some b ∧
            ∃ t, stepBlock c s = .next t ∧
              t.forgetTemporaries =
                ({ s with
                    outCap := s.capL
                    out := s.out.write s.outLen b
                    outLen := s.outLen + b.length
                    seq := .done } : State).forgetTemporaries) := by
  unfold stepBlock
  cases h : s.input.slice 0 s.nL with
  | none => exact .inl ⟨rfl, rfl⟩
  | some ch =>
    refine .inr ⟨ch, rfl, ?_⟩
    have hf := State.blockTemporaries_forget { s with outCap := s.capL } c ch s.levelL s.capL
    simp only
    cases hb : compressBlock c ch s.levelL s.capL with
    | none =>
      refine .inl ⟨rfl, _, rfl, ?_⟩
      simp [State.failWith, State.failedAt, State.forgetTemporaries]
    | some b =>
      refine .inr ⟨b, rfl, _, rfl, ?_⟩
      simp [State.append, State.forgetTemporaries]

/-- The step of `S_CHUNK`: out of the loop, a denied request, a refusal for missing input, a failure, or one block
appended. -/
theorem stepChunk_cases (c : Config) (s : State) :
    (s.nL - s.off = 0 ∧ stepChunk c s = .next { s with seq := .eof }) ∨
      (s.nL - s.off ≠ 0 ∧
        ((c.grants s.draws (s.outLen + 65536) = false ∧
            stepChunk c s = .next (s.drawn.failWith .resourceExhausted s.off)) ∨
          (c.grants s.draws (s.outLen + 65536) = true ∧
            ((s.input.slice s.off s.chunkSize = none ∧ stepChunk c s = .refused .inputNotSupplied) ∨
              ∃ ch, s.input.slice s.off s.chunkSize = some ch ∧
                ((compressBlock c ch s.levelL 65536 = none ∧
                    ∃ t, stepChunk c s = .next t ∧
                      t.forgetTemporaries =
                        (s.drawn.failedAt .compressFailed s.seq.code s.off).forgetTemporaries) ∨
                  ∃ b, compressBlock c ch s.levelL 65536 = some b ∧
                    ∃ t, stepChunk c s = .next t ∧
                      t.forgetTemporaries =
                        ({ s with
                            outCap := s.outLen + 65536
                            out := s.out.write s.outLen b
                            outLen := s.outLen + b.length
                            off := s.off + s.chunkSize
                            draws := s.draws + 1
                            seq := .chunk } : State).forgetTemporaries))))) := by
  unfold stepChunk
  by_cases h0 : s.remaining = 0
  · exact .inl ⟨h0, by rw [if_pos h0]⟩
  · refine .inr ⟨h0, ?_⟩
    rw [if_neg h0]
    cases hg : c.grants s.draws (s.outLen + blockMax) with
    | false => exact .inl ⟨rfl, by simp⟩
    | true =>
      refine .inr ⟨rfl, ?_⟩
      rw [if_pos rfl]
      cases h : s.input.slice s.off s.chunkSize with
      | none => exact .inl ⟨rfl, rfl⟩
      | some ch =>
        refine .inr ⟨ch, rfl, ?_⟩
        simp only
        cases hb : compressBlock c ch s.levelL blockMax with
        | none =>
          refine .inl ⟨rfl, _, rfl, ?_⟩
          simp [State.failWith, State.failedAt, State.forgetTemporaries]
        | some b =>
          refine .inr ⟨b, rfl, _, rfl, ?_⟩
          simp [State.append, State.forgetTemporaries]

/-- The step of `S_EOF`. -/
theorem stepEof_cases (c : Config) (e : Bool) (s : State) :
    (e = false ∧ stepEof c e s = .next { s with seq := .done }) ∨
      (e = true ∧
        ((c.grants s.draws (s.outLen + 28) = false ∧
            stepEof c e s = .next (s.drawn.failWith .resourceExhausted s.off)) ∨
          (c.grants s.draws (s.outLen + 28) = true ∧
            stepEof c e s = .next
              { s with
                outCap := s.outLen + 28
                out := s.out.write s.outLen eofMarker
                outLen := s.outLen + 28
                draws := s.draws + 1
                seq := .done }))) := by
  unfold stepEof
  cases e with
  | false => exact .inl ⟨rfl, rfl⟩
  | true =>
    refine .inr ⟨rfl, ?_⟩
    cases hg : c.grants s.draws (s.outLen + eofLen) with
    | false => exact .inl ⟨rfl, by simp⟩
    | true => exact .inr ⟨rfl, rfl⟩

/-- The step of `S_GZIP`. -/
theorem stepGzip_cases (c : Config) (s : State) :
    (c.grants s.draws (s.nL + 26) = false ∧
        stepGzip c s = .next (s.drawn.failWith .resourceExhausted 0)) ∨
      (c.grants s.draws (s.nL + 26) = true ∧
        ((s.input.slice 0 s.nL = none ∧ stepGzip c s = .refused .inputNotSupplied) ∨
          ∃ i, s.input.slice 0 s.nL = some i ∧
            ((c.gzipStream i s.levelL (s.nL + 26) = none ∧
                stepGzip c s = .next (s.drawn.failWith .compressFailed 0)) ∨
              ∃ g, c.gzipStream i s.levelL (s.nL + 26) = some g ∧
                stepGzip c s = .next
                  { s with
                    outCap := s.nL + 26
                    out := s.out.write s.outLen g
                    outLen := s.outLen + g.length
                    draws := s.draws + 1
                    seq := .done }))) := by
  unfold stepGzip
  cases hg : c.grants s.draws (s.nL + gzipMargin) with
  | false => exact .inl ⟨rfl, by simp⟩
  | true =>
    refine .inr ⟨rfl, ?_⟩
    rw [if_pos rfl]
    cases h : s.input.slice 0 s.nL with
    | none => exact .inl ⟨rfl, rfl⟩
    | some i =>
      refine .inr ⟨i, rfl, ?_⟩
      cases hz : c.gzipStream i s.levelL (s.nL + gzipMargin) with
      | none => exact .inl ⟨rfl, by simp only [hz]⟩
      | some g => exact .inr ⟨g, rfl, by simp only [hz]; rfl⟩

/-- What the doorbell can do (44_host_commands R102, R103; 70_reset_and_hazards R134). -/
theorem hostDoorbell_cases (w : Word) (s : State) :
    (s.busy = true ∧ hostDoorbell w s = .next s) ∨
      (s.busy = false ∧ s.inputSupplied w = true ∧ hostDoorbell w s = .next (s.start w)) ∨
      (s.busy = false ∧ s.inputSupplied w = false ∧ hostDoorbell w s = .refused .inputNotSupplied) := by
  unfold hostDoorbell
  cases s.busy <;> cases s.inputSupplied w <;> simp

/-- What a register write can do (44_host_commands R101 to R103). -/
theorem hostWrite_cases {c : Config} {index value : Nat} {s t : State} (h : hostWrite c index value s = .next t) :
    (index = 0 ∧ value < 2 ^ 32 ∧ s.busy = true ∧ t = s) ∨
      (index = 0 ∧ value < 2 ^ 32 ∧ s.busy = false ∧ s.inputSupplied (BitVec.ofNat 32 value) = true ∧
        t = s.start (BitVec.ofNat 32 value)) ∨
      (index = 1 ∧ value < 2 ^ 32 ∧ t = { s with level := BitVec.ofNat 32 value }) ∨
      (index = 2 ∧ value < 2 ^ c.lenBits ∧ t = { s with inLen := value }) ∨
      (index = 3 ∧ value < 2 ^ c.lenBits ∧ t = { s with cap := value }) ∨
      (3 < index ∧ t = s) := by
  unfold hostWrite at h
  split at h
  · split at h
    · rcases hostDoorbell_cases (BitVec.ofNat 32 value) s with ⟨_, h'⟩ | ⟨_, _, h'⟩ | ⟨_, _, h'⟩ <;>
        rw [h'] at h <;> cases h <;> simp_all
    · cases h
  · split at h <;> cases h; simp_all
  · split at h <;> cases h; simp_all
  · split at h <;> cases h; simp_all
  · cases h
    have : 3 < index := by
      rcases index with _ | _ | _ | _ | n <;> simp_all
    simp_all

/-- The engine's turn: a step of the operation the latched word names, the failure of a reserved word, or, when not
busy, no change. -/
theorem engineTurn_cases (run : Instr → State → Host.Outcome State Fault Refusal) (s : State) :
    (s.busy = false ∧ engineTurn run s = .next s) ∨
      (s.busy = true ∧
        ((∃ i, decode s.cmdL = .ok i ∧ engineTurn run s = run i s) ∨
          ∃ e, decode s.cmdL = .error e ∧ engineTurn run s = rejectReserved s)) := by
  unfold engineTurn
  cases hb : s.busy with
  | false => exact .inl ⟨rfl, rfl⟩
  | true =>
    refine .inr ⟨rfl, ?_⟩
    rw [if_pos rfl]
    cases hd : decode s.cmdL with
    | ok i => exact .inl ⟨i, rfl, rfl⟩
    | error e => exact .inr ⟨e, rfl, rfl⟩

/-- What one turn of the machine can do to its next state: the engine's turn, or one action of the host. -/
theorem turn_cases {c : Config} {run : Instr → State → Host.Outcome State Fault Refusal} {s t : State}
    (h : turn c run s = .next t) :
    engineTurn run s = .next t ∨
      ∃ line rest, s.hostTodo = line :: rest ∧
        ((line = .pass ∧ engineTurn run { s with hostTodo := rest } = .next t) ∨
          (line = .wait ∧ s.busy = false ∧ t = { s with hostTodo := rest }) ∨
          (∃ bytes, line = .input bytes ∧ s.busy = false ∧
            t = { s with hostTodo := rest, input := Memory.ofBytes 0 bytes }) ∨
          (∃ index value, line = .write index value ∧
            hostWrite c index value { s with hostTodo := rest } = .next t) ∨
          (∃ index, line = .read index ∧ t = hostRead c index { s with hostTodo := rest }) ∨
          (∃ offset count, line = .readOut offset count ∧ t = hostReadOut c offset count { s with hostTodo := rest }) ∨
          (line = .takeResult ∧ t = hostTakeResult c { s with hostTodo := rest }) ∨
          (line = .reset ∧ t = ({ s with hostTodo := rest } : State).hardwareReset)) := by
  unfold turn at h
  cases hq : s.hostTodo with
  | nil => rw [hq] at h; exact .inl h
  | cons line rest =>
    rw [hq] at h
    cases line with
    | wait =>
      simp only at h
      split at h
      · exact .inl h
      · rename_i hb
        refine .inr ⟨_, _, rfl, .inr (.inl ⟨rfl, by simpa using hb, ?_⟩)⟩
        cases h; rfl
    | pass => exact .inr ⟨_, _, rfl, .inl ⟨rfl, h⟩⟩
    | input bytes =>
      simp only [hostInput] at h
      split at h
      · cases h
      · rename_i hb
        refine .inr ⟨_, _, rfl, .inr (.inr (.inl ⟨bytes, rfl, by simpa [State.busy] using hb, ?_⟩))⟩
        cases h; rfl
    | write index value => exact .inr ⟨_, _, rfl, .inr (.inr (.inr (.inl ⟨index, value, rfl, h⟩)))⟩
    | read index =>
      refine .inr ⟨_, _, rfl, .inr (.inr (.inr (.inr (.inl ⟨index, rfl, ?_⟩))))⟩
      cases h; rfl
    | readOut offset count =>
      refine .inr ⟨_, _, rfl, .inr (.inr (.inr (.inr (.inr (.inl ⟨offset, count, rfl, ?_⟩)))))⟩
      cases h; rfl
    | takeResult =>
      refine .inr ⟨_, _, rfl, .inr (.inr (.inr (.inr (.inr (.inr (.inl ⟨rfl, ?_⟩))))))⟩
      cases h; rfl
    | reset =>
      refine .inr ⟨_, _, rfl, .inr (.inr (.inr (.inr (.inr (.inr (.inr ⟨rfl, ?_⟩))))))⟩
      cases h; rfl

end Sys2Proof.Machine
end

