-- ==== Sys2Proof/Laws/Exec.lean ====
section
/-! SUPPORT. Everything one step of an operation can do, said once (`Effect`, `execWith_effect`), and the small facts
about views of a state that proofs over it need. -/

namespace Sys2Proof.Machine

/-- Everything a step of an operation can do under a configuration, up to the datapath temporaries: the guards of the
rule that applies and the next state. -/
inductive Effect (c : Config) : Instr → State → State → Prop where
  /-- A failed validation (44_host_commands R105). -/
  | invalid (i : Instr) (s : State) (hs : s.seq = .validate) :
      Effect c i s (s.failedAt .invalidArgument 1#3 0)
  /-- `BLOCK` dispatched (44_host_commands R105). -/
  | toBlock (e : Bool) (s : State) (hs : s.seq = .validate) (hn : s.nL ≤ 65280) (hc : s.capL ≤ 65536) :
      Effect c (.block e false) s { s with seq := .block }
  /-- `BGZF` dispatched (44_host_commands R105). -/
  | toChunk (e : Bool) (s : State) (hs : s.seq = .validate) (hl : levelLegal s.levelL = true) :
      Effect c (.bgzf e false) s { s with seq := .chunk }
  /-- `GZIP` dispatched (44_host_commands R105). -/
  | toGzip (e : Bool) (s : State) (hs : s.seq = .validate) (hl : levelLegal s.levelL = true) :
      Effect c (.gzip e false) s { s with seq := .gzip }
  /-- The block fails (41_block_compressor R77). -/
  | blockFails (e n : Bool) (s : State) (ch : List Byte) (hs : s.seq = .block)
      (hi : s.input.slice 0 s.nL = some ch) (hb : compressBlock c ch s.levelL s.capL = none) :
      Effect c (.block e n) s (s.failedAt .compressFailed 4#3 0)
  /-- The block is appended (41_block_compressor R77). -/
  | blockDone (e n : Bool) (s : State) (ch b : List Byte) (hs : s.seq = .block)
      (hi : s.input.slice 0 s.nL = some ch) (hb : compressBlock c ch s.levelL s.capL = some b) :
      Effect c (.block e n) s
        { s with outCap := s.capL, out := s.out.write s.outLen b, outLen := s.outLen + b.length, seq := .done }
  /-- The loop is left (42_bgzf_encoder R86). -/
  | toEof (e n : Bool) (s : State) (hs : s.seq = .chunk) (h0 : s.nL - s.off = 0) :
      Effect c (.bgzf e n) s { s with seq := .eof }
  /-- The grow request of a chunk is denied (42_bgzf_encoder R84). -/
  | chunkDenied (e n : Bool) (s : State) (hs : s.seq = .chunk) (h0 : s.nL - s.off ≠ 0)
      (hg : c.grants s.draws (s.outLen + 65536) = false) :
      Effect c (.bgzf e n) s (s.drawn.failedAt .resourceExhausted 2#3 s.off)
  /-- The block of a chunk fails (42_bgzf_encoder R85). -/
  | chunkFails (e n : Bool) (s : State) (ch : List Byte) (hs : s.seq = .chunk) (h0 : s.nL - s.off ≠ 0)
      (hg : c.grants s.draws (s.outLen + 65536) = true) (hi : s.input.slice s.off s.chunkSize = some ch)
      (hb : compressBlock c ch s.levelL 65536 = none) :
      Effect c (.bgzf e n) s (s.drawn.failedAt .compressFailed 2#3 s.off)
  /-- One block is appended (42_bgzf_encoder R84). -/
  | chunkAppended (e n : Bool) (s : State) (ch b : List Byte) (hs : s.seq = .chunk) (h0 : s.nL - s.off ≠ 0)
      (hg : c.grants s.draws (s.outLen + 65536) = true) (hi : s.input.slice s.off s.chunkSize = some ch)
      (hb : compressBlock c ch s.levelL 65536 = some b) :
      Effect c (.bgzf e n) s
        { s with
          outCap := s.outLen + 65536
          out := s.out.write s.outLen b
          outLen := s.outLen + b.length
          off := s.off + s.chunkSize
          draws := s.draws + 1
          seq := .chunk }
  /-- No marker is requested (42_bgzf_encoder R88). -/
  | noMarker (n : Bool) (s : State) (hs : s.seq = .eof) :
      Effect c (.bgzf false n) s { s with seq := .done }
  /-- The grow request of the marker is denied (42_bgzf_encoder R88). -/
  | markerDenied (n : Bool) (s : State) (hs : s.seq = .eof) (hg : c.grants s.draws (s.outLen + 28) = false) :
      Effect c (.bgzf true n) s (s.drawn.failedAt .resourceExhausted 3#3 s.off)
  /-- The marker is appended (42_bgzf_encoder R88). -/
  | markerAppended (n : Bool) (s : State) (hs : s.seq = .eof) (hg : c.grants s.draws (s.outLen + 28) = true) :
      Effect c (.bgzf true n) s
        { s with
          outCap := s.outLen + 28
          out := s.out.write s.outLen eofMarker
          outLen := s.outLen + 28
          draws := s.draws + 1
          seq := .done }
  /-- The request of `GZIP` is denied (43_gzip_encoder R96). -/
  | gzipDenied (e n : Bool) (s : State) (hs : s.seq = .gzip) (hg : c.grants s.draws (s.nL + 26) = false) :
      Effect c (.gzip e n) s (s.drawn.failedAt .resourceExhausted 5#3 0)
  /-- The stream fails (43_gzip_encoder R96). -/
  | gzipFails (e n : Bool) (s : State) (i : List Byte) (hs : s.seq = .gzip)
      (hg : c.grants s.draws (s.nL + 26) = true) (hi : s.input.slice 0 s.nL = some i)
      (hz : c.gzipStream i s.levelL (s.nL + 26) = none) :
      Effect c (.gzip e n) s (s.drawn.failedAt .compressFailed 5#3 0)
  /-- The stream is appended (43_gzip_encoder R96). -/
  | gzipDone (e n : Bool) (s : State) (i g : List Byte) (hs : s.seq = .gzip)
      (hg : c.grants s.draws (s.nL + 26) = true) (hi : s.input.slice 0 s.nL = some i)
      (hz : c.gzipStream i s.levelL (s.nL + 26) = some g) :
      Effect c (.gzip e n) s
        { s with
          outCap := s.nL + 26
          out := s.out.write s.outLen g
          outLen := s.outLen + g.length
          draws := s.draws + 1
          seq := .done }

/-- The failure of validation, in the form `failedAt`. -/
theorem State.failWith_validate {s : State} (hs : s.seq = .validate) :
    s.failWith .invalidArgument 0 = s.failedAt .invalidArgument 1#3 0 := by
  rw [State.failWith_eq_failedAt, hs]; rfl

/-- A step of `BLOCK` that answers a next state has one of the effects of `BLOCK`. -/
theorem execBlockWith_effect {c : Config} {e n : Bool} {s t : State} (h : execBlockWith c e n s = .next t) :
    ∃ u : State, t.forgetTemporaries = u.forgetTemporaries ∧ Effect c (.block e n) s u := by
  unfold execBlockWith at h
  split at h <;> rename_i hs <;> try cases h
  · unfold State.validateBlock
    split
    · exact ⟨_, rfl, State.failWith_validate hs ▸ .invalid _ s hs⟩
    · rename_i hn
      split
      · exact ⟨_, rfl, State.failWith_validate hs ▸ .invalid _ s hs⟩
      · rename_i hb
        obtain rfl : n = false := by simpa using hn
        simp only [chunkMax, blockMax] at hb
        exact ⟨_, rfl, .toBlock e s hs (by omega) (by omega)⟩
  · rcases stepBlock_cases c s with ⟨_, h'⟩ | ⟨ch, hi, ⟨hb, t', h', hf⟩ | ⟨b, hb, t', h', hf⟩⟩ <;>
      rw [h'] at h <;> cases h
    · rw [hs] at hf; exact ⟨_, hf, .blockFails e n s ch hs hi hb⟩
    · exact ⟨_, hf, .blockDone e n s ch b hs hi hb⟩

/-- A step of `BGZF` that answers a next state has one of the effects of `BGZF`. -/
theorem execBgzfWith_effect {c : Config} {e n : Bool} {s t : State} (h : execBgzfWith c e n s = .next t) :
    ∃ u : State, t.forgetTemporaries = u.forgetTemporaries ∧ Effect c (.bgzf e n) s u := by
  unfold execBgzfWith at h
  split at h <;> rename_i hs <;> try cases h
  · unfold State.validateBgzf
    split
    · exact ⟨_, rfl, State.failWith_validate hs ▸ .invalid _ s hs⟩
    · rename_i hn
      obtain rfl : n = false := by simpa using hn
      split
      · rename_i hl; exact ⟨_, rfl, .toChunk e s hs hl⟩
      · exact ⟨_, rfl, State.failWith_validate hs ▸ .invalid _ s hs⟩
  · rcases stepChunk_cases c s with
      ⟨h0, h'⟩ | ⟨h0, ⟨hg, h'⟩ | ⟨hg, ⟨_, h'⟩ | ⟨ch, hi, ⟨hb, t', h', hf⟩ | ⟨b, hb, t', h', hf⟩⟩⟩⟩ <;>
      rw [h'] at h <;> cases h
    · exact ⟨_, rfl, .toEof e n s hs h0⟩
    · refine ⟨_, rfl, ?_⟩
      rw [State.failWith_eq_failedAt, show s.drawn.seq = .chunk from hs]
      exact .chunkDenied e n s hs h0 hg
    · rw [hs] at hf; exact ⟨_, hf, .chunkFails e n s ch hs h0 hg hi hb⟩
    · exact ⟨_, hf, .chunkAppended e n s ch b hs h0 hg hi hb⟩
  · rcases stepEof_cases c e s with ⟨rfl, h'⟩ | ⟨rfl, ⟨hg, h'⟩ | ⟨hg, h'⟩⟩ <;> rw [h'] at h <;> cases h
    · exact ⟨_, rfl, .noMarker n s hs⟩
    · refine ⟨_, rfl, ?_⟩
      rw [State.failWith_eq_failedAt, show s.drawn.seq = .eof from hs]
      exact .markerDenied n s hs hg
    · exact ⟨_, rfl, .markerAppended n s hs hg⟩

/-- A step of `GZIP` that answers a next state has one of the effects of `GZIP`, and writes no temporary. -/
theorem execGzipWith_effect {c : Config} {e n : Bool} {s t : State} (h : execGzipWith c e n s = .next t) :
    Effect c (.gzip e n) s t := by
  unfold execGzipWith at h
  split at h <;> rename_i hs <;> try cases h
  · unfold State.validateGzip
    split
    · exact State.failWith_validate hs ▸ .invalid _ s hs
    · rename_i hn
      obtain rfl : n = false := by simpa using hn
      split
      · rename_i hl; exact .toGzip e s hs hl
      · exact State.failWith_validate hs ▸ .invalid _ s hs
  · rcases stepGzip_cases c s with ⟨hg, h'⟩ | ⟨hg, ⟨_, h'⟩ | ⟨i, hi, ⟨hz, h'⟩ | ⟨g, hz, h'⟩⟩⟩ <;>
      rw [h'] at h <;> cases h
    · rw [State.failWith_eq_failedAt, show s.drawn.seq = .gzip from hs]
      exact .gzipDenied e n s hs hg
    · rw [State.failWith_eq_failedAt, show s.drawn.seq = .gzip from hs]
      exact .gzipFails e n s i hs hg hi hz
    · exact .gzipDone e n s i g hs hg hi hz

/-- A step of an operation that answers a next state has one of the effects listed. -/
theorem execWith_effect {c : Config} {i : Instr} {s t : State} (h : execWith c i s = .next t) :
    ∃ u : State, t.forgetTemporaries = u.forgetTemporaries ∧ Effect c i s u := by
  cases i with
  | block e n => exact execBlockWith_effect h
  | bgzf e n => exact execBgzfWith_effect h
  | gzip e n => exact ⟨t, rfl, execGzipWith_effect h⟩

/-- The same of `exec`. -/
theorem exec_effect {i : Instr} {s t : State} (h : exec i s = .next t) :
    ∃ u : State, t.forgetTemporaries = u.forgetTemporaries ∧ Effect Config.hw i s u :=
  execWith_effect (exec_eq_execWith i s ▸ h)

/-- Equality up to the temporaries, field by field. -/
theorem State.fields_of_forgetTemporaries {t u : State} (h : t.forgetTemporaries = u.forgetTemporaries) :
    t.level = u.level ∧ t.inLen = u.inLen ∧ t.cap = u.cap ∧ t.outLen = u.outLen ∧ t.errOffset = u.errOffset ∧
      t.cmdL = u.cmdL ∧ t.lvlL = u.lvlL ∧ t.nL = u.nL ∧ t.capL = u.capL ∧ t.seq = u.seq ∧ t.err = u.err ∧
      t.stage = u.stage ∧ t.off = u.off ∧ t.outCap = u.outCap ∧ t.input = u.input ∧ t.out = u.out ∧
      t.hostTodo = u.hostTodo ∧ t.hostSaw = u.hostSaw ∧ t.draws = u.draws := by
  cases t; cases u
  simp only [State.forgetTemporaries, State.mk.injEq] at h
  simp only [h, and_self]

/-- `STATUS` as a number (10_state R20). -/
theorem State.status_toNat (s : State) :
    s.status.toNat =
      s.seq.code.toNat + 8 * (if s.busy = true then 1 else 0) + 16 * s.err.code.toNat + 256 * s.stage.toNat := by
  unfold State.status
  generalize s.seq.code = a
  generalize s.err.code = b
  generalize s.stage = c
  generalize s.busy = d
  revert a b c d
  decide

/-- One step of a run. -/
theorem run_succ {c : Config} {s t : State} (k : Nat) (h : stepWith c s = .next t) :
    Host.Core.run (coreWith c) (k + 1) s = Host.Core.run (coreWith c) k t := by
  have e : (coreWith c).step s = .next t := h
  simp only [Host.Core.run, e]

/-- With nothing for the host to do and nothing running, a run stays where it is (log 2). -/
theorem run_waits {c : Config} {s : State} (k : Nat) (h : s.hostTodo = []) (hb : s.busy = false) :
    Host.Core.run (coreWith c) k s = .next s := by
  induction k with
  | zero => rfl
  | succ k ih =>
    have hw : stepWith c s = .next s := by
      unfold stepWith turn engineTurn
      simp only [h, hb, Bool.false_eq_true, if_false]
    rw [run_succ k hw, ih]

end Sys2Proof.Machine
end

