-- ==== Sys2Proof/Laws/PerInstr.lean ====
section
/-! SUPPORT. Statements about every operation as syntax, one lemma a constructor. -/

namespace Sys2Proof.Laws.TableRow

/-- The word of an operation lies in its row of the command table: under the mask it is the row's match value
(30_encoding R59). -/
def Statement : Instr → Prop
  | .block eof null => encode (.block eof null) &&& 0xFFFFFFF3#32 = 0x00000001#32
  | .bgzf eof null => encode (.bgzf eof null) &&& 0xFFFFFFF3#32 = 0x00000002#32
  | .gzip eof null => encode (.gzip eof null) &&& 0xFFFFFFF3#32 = 0x00000003#32

theorem block (eof null : Bool) : Statement (.block eof null) := by
  cases eof <;> cases null <;> rfl

theorem bgzf (eof null : Bool) : Statement (.bgzf eof null) := by
  cases eof <;> cases null <;> rfl

theorem gzip (eof null : Bool) : Statement (.gzip eof null) := by
  cases eof <;> cases null <;> rfl

end Sys2Proof.Laws.TableRow
end

