-- ==== Sys2Proof/Tests/Slice0.lean ====
section
/-! SUPPORT. The model's own tests. Expected results are the spec's worked vectors (95_test_vectors) and words written
out from its encodings (30_encoding), never the model's own answers. After the tests, one witness for each statement
that has hypotheses: concrete states and operands that meet all of them together. -/

namespace Sys2Proof.Tests

open Sys2Proof.Machine

/-! ### A configuration and small states for the tests -/

/-- A platform for tests: 17-bit lengths, the default CRC, the sample answers of 95_test_vectors 3.1 and 3.8 for the
one byte "a", no other answers, and an allocator that grants. -/
def testConfig : Config :=
  Config.withGzipCrc
    { lenBitsAbove17 := 0
      deflateAnswer := fun chunk _ _ => if chunk = [0x61] then some [0x4B, 0x04, 0x00] else none
      gzipAnswer := fun i _ _ =>
        if i = [0x61] then
          some [0x1F, 0x8B, 0x08, 0x00, 0x00, 0x00, 0x00, 0x00, 0x02, 0x03, 0x4B, 0x04, 0x00, 0x43, 0xBE, 0xB7, 0xE8,
            0x01, 0x00, 0x00, 0x00]
        else none
      crcInit := 0#32
      crcStep := fun a _ => a
      crcFinal := fun a => a
      allocAnswer := fun _ _ => true
      freeLength := fun _ => 0
      freeByte := fun _ _ => 0#8 }

/-- A platform whose compressor copies: a decoder that copies makes it sound, and every chunk fits. -/
def copyConfig : Config :=
  { testConfig with deflateAnswer := fun chunk _ _ => some chunk }

/-- The state after reset, moved to a sequencer state. -/
def at_ (q : SeqState) : State := { State.reset with seq := q }

/-- The same with the one byte "a" as the input. -/
def atWithA (q : SeqState) : State := { at_ q with nL := 1, input := [(0, 0x61)] }

/-- A command with the given word just started on the input "a" (95_test_vectors 3.1, 3.8). -/
def started (w : Word) : State := ({ State.reset with inLen := 1, input := [(0, 0x61)] } : State).start w

/-- The state with this line pending. -/
def pending (s : State) (line : HostLine) : State := { s with hostTodo := [line] }

/-- A finished command whose result is the one byte 0x07. -/
def finished : State := { at_ .done with outLen := 1, outCap := 28, out := [(0, 0x07)] }

/-! ### WellFormed: ill-formed terms are refused -/

theorem test_wf_refuses_all_zero_word : commandWordWellFormed 0x00000000#32 = false := by decide
theorem test_wf_refuses_reserved_bit : commandWordWellFormed 0x00000012#32 = false := by decide
theorem test_wf_accepts_bgzf : commandWordWellFormed 0x00000006#32 = true := by decide
theorem test_wf_refuses_wide_command : (HostLine.write 0 (2 ^ 32)).wellFormed testConfig = false := by decide
theorem test_wf_refuses_wide_level : (HostLine.write 1 (2 ^ 32)).wellFormed testConfig = false := by decide
theorem test_wf_refuses_wide_length : (HostLine.write 2 (2 ^ 17)).wellFormed testConfig = false := by decide
theorem test_wf_refuses_wide_capacity : (HostLine.write 3 (2 ^ 17)).wellFormed testConfig = false := by decide
theorem test_wf_accepts_widest_length : (HostLine.write 2 (2 ^ 17 - 1)).wellFormed testConfig = true := by decide

/-! ### Decoding: words written out bit by bit from 30_encoding R58 -/

theorem test_decode_block : decode 0b00000000000000000000000000000101#32 = .ok (.block true false) := by decide
theorem test_decode_bgzf : decode 0b00000000000000000000000000001110#32 = .ok (.bgzf true true) := by decide
theorem test_decode_gzip : decode 0b00000000000000000000000000001011#32 = .ok (.gzip false true) := by decide
/-- 95_test_vectors 2.8, last row. -/
theorem test_decode_refuses_all_ones : decode 0xFFFFFFFF#32 = .error .reservedBits := by decide
/-- 95_test_vectors 2.8: `OP` = 00 with both flags set. -/
theorem test_decode_refuses_op_00 : decode 0x0000000C#32 = .error .reservedOp := by decide
theorem test_table_word_gzip : decodeTableWord 32 3 = some (.gzip false false) := by decide

/-! ### Packing and the status word -/

/-- 95_test_vectors 2.1. -/
theorem test_le16_65315 : le16 65315 = [0x23, 0xFF] := by decide
/-- 95_test_vectors 2.1. -/
theorem test_le32_crc_of_a : le32 0xE8B7BE43 = [0x43, 0xBE, 0xB7, 0xE8] := by decide
/-- 95_test_vectors 2.1. -/
theorem test_sint32_least : sint32 0x80000000#32 = -2147483648 := by decide
/-- 95_test_vectors 2.2, last row: the largest block. -/
theorem test_largest_bsize : le16 (65510 + 25) = [0xFF, 0xFF] := by decide
/-- 95_test_vectors 2.9, "EOF marker: grow denied". -/
theorem test_status_marker_denied : ((at_ .eof).failedAt .resourceExhausted 3#3 5).status = 0x00000337#32 := by decide
/-- 95_test_vectors 2.9, "in `S_GZIP`". -/
theorem test_status_gzip : (at_ .gzip).status = 0x0000000D#32 := by decide
/-- 95_test_vectors 2.11. -/
theorem test_crc_of_a : testConfig.crc32 [0x61] = 0xE8B7BE43#32 := by decide

/-! ### BLOCK -/

/-- 95_test_vectors 3.1, byte for byte. -/
theorem test_block_of_a :
    compressBlock testConfig [0x61] 6 65536 =
      some [0x1F, 0x8B, 0x08, 0x04, 0x00, 0x00, 0x00, 0x00, 0x00, 0xFF, 0x06, 0x00, 0x42, 0x43, 0x02, 0x00,
        0x1C, 0x00, 0x4B, 0x04, 0x00, 0x43, 0xBE, 0xB7, 0xE8, 0x01, 0x00, 0x00, 0x00] := by decide

/-- 95_test_vectors 3.1: with `CAP` = 28 the three payload bytes do not fit, `STATUS` = 0x427. -/
theorem test_block_does_not_fit :
    (match execWith testConfig (.block false false) { atWithA .block with capL := 28 } with
      | .next t => t.status
      | _ => 0#32) = 0x00000427#32 := by decide

/-! ### BGZF -/

/-- 95_test_vectors 2.5 row 2, the last step: the marker in 28 granted bytes. -/
theorem test_bgzf_marker :
    (match execWith testConfig (.bgzf true false) (at_ .eof) with
      | .next t => (t.status, t.outLen, t.outCap, t.out.read 16, t.out.read 18, t.out.read 28)
      | _ => (0#32, 0, 0, none, none, none)) = (0x00000006#32, 28, 28, some 0x1B, some 0x03, none) := by decide

/-- 95_test_vectors 2.5 row 6, the second chunk's place: a block lands at `OUT_LEN`, and `OFF` moves by the chunk. -/
theorem test_bgzf_chunk_lands_at_out_len :
    (match execWith testConfig (.bgzf false false) { atWithA .chunk with outLen := 40, outCap := 65536 } with
      | .next t => (t.off, t.outLen, t.outCap, t.out.read 39, t.out.read 40, t.out.read 56)
      | _ => (0, 0, 0, none, none, none)) = (1, 69, 65576, none, some 0x1F, some 0x1C) := by decide

/-! ### GZIP -/

/-- 95_test_vectors 2.7 row 1 and Program 6, the last step. -/
theorem test_gzip_of_a :
    (match execWith testConfig (.gzip false false) (atWithA .gzip) with
      | .next t => (t.status, t.outLen, t.outCap, t.off, t.out.read 8, t.out.read 20)
      | _ => (0#32, 0, 0, 9, none, none)) = (0x00000006#32, 21, 27, 0, some 0x02, some 0x00) := by decide

/-- 95_test_vectors 2.7 row 10: a request of 2^LEN_BITS or more is always denied, `STATUS` = 0x537. -/
theorem test_gzip_denied :
    (match execWith testConfig (.gzip false false) { atWithA .gzip with nL := 2 ^ 17 - 1 } with
      | .next t => t.status
      | _ => 0#32) = 0x00000537#32 := by decide

/-! ### The step, reserved words and the host -/

/-- 95_test_vectors 2.8: word 0x80000002 starts and fails validation with 0x117. -/
theorem test_reserved_word_fails_validation :
    (match stepWith testConfig (started 0x80000002#32) with
      | .next t => (t.status, t.cmdL)
      | _ => (0#32, 0#32)) = (0x00000117#32, 0x80000002#32) := by decide

/-- 95_test_vectors 2.10 row 7: a write of `LEVEL` while busy does not change the running command. -/
theorem test_level_write_while_busy :
    (match stepWith testConfig (pending { at_ .chunk with lvlL := 6#32 } (.write 1 10)) with
      | .next t => (t.level, t.lvlL, t.seq)
      | _ => (0#32, 0#32, .idle)) = (10#32, 6#32, .chunk) := by decide

/-- 95_test_vectors 2.10 row 6: a write of `CMD` while busy is dropped. -/
theorem test_doorbell_while_busy :
    (match stepWith testConfig (pending { at_ .chunk with cmdL := 2#32 } (.write 0 3)) with
      | .next t => (t.cmdL, t.seq)
      | _ => (0#32, .idle)) = (2#32, .chunk) := by decide

/-- 70_reset_and_hazards R134 and 93_implementation_defined U13: a START that announces more input than is there is
refused even where validation would fail (a reserved word); with `IN_NULL` = 1 none is needed. -/
theorem test_start_without_input :
    (match stepWith testConfig (pending { State.reset with inLen := 5 } (.write 0 0x12)) with
      | .refused r => some r
      | _ => none) = some .inputNotSupplied ∧
      (match stepWith testConfig (pending { State.reset with inLen := 5 } (.write 0 0xA)) with
        | .next t => t.seq
        | _ => .idle) = .validate := by decide

/-- 95_test_vectors 2.10 row 4: index 7 reads 0. -/
theorem test_read_index_7 :
    (match stepWith testConfig (pending finished (.read 7)) with
      | .next t => t.hostSaw
      | _ => []) = [.register 7 0] := by decide

/-- 44_host_commands R107 with the defaults, on "a" (95_test_vectors 1.12): the lines that are written. -/
theorem test_compress_expands :
    compressLines (some [0x61]) =
      some [.input [0x61], .write 2 1, .write 1 9, .write 0 2, .wait, .takeResult] := by decide

/-- The next step of a freshly placed word is the operation's own first step (10_state R25). -/
theorem test_withFetchWord_runs :
    step (State.reset.withFetchWord 32 3) = .next { at_ .gzip with cmdL := 3#32 } := rfl

/-! ### Witnesses: every statement with hypotheses has some -/

theorem witness_EncodeThenDecodeReturnsOperation : (Instr.bgzf true true).wellFormed = true := by decide

theorem witness_DecodeThenEncodeReturnsWord : decode 0x0000000F#32 = .ok (.gzip true true) := by decide

theorem witness_PackingFunctionsAreLittleEndian :
    65535 < 2 ^ 16 ∧ 0xFFFFFFFF < 2 ^ 32 ∧ (0x7FFFFFFF#32).toNat < 2 ^ 31 ∧ ¬ (0x80000000#32).toNat < 2 ^ 31 := by
  decide

theorem witness_StepRunsDecodedOperation :
    (started 2#32).hostTodo = [] ∧ (started 2#32).busy = true ∧
      decode (started 2#32).cmdL = .ok (.bgzf false false) ∧
      (pending (started 2#32) .pass).hostTodo = .pass :: [] ∧ (pending (started 2#32) .pass).busy = true ∧
      decode (pending (started 2#32) .pass).cmdL = .ok (.bgzf false false) ∧
      (pending (started 2#32) .wait).hostTodo = .wait :: [] ∧ (pending (started 2#32) .wait).busy = true ∧
      decode (pending (started 2#32) .wait).cmdL = .ok (.bgzf false false) := by decide

theorem witness_EngineWaitsWhenNotBusy :
    ((at_ .idle).seq = .idle ∧ (at_ .idle).hostTodo = []) ∧
      (finished.seq = .done ∧ (pending finished .wait).hostTodo = .wait :: []) ∧
      ((at_ .fail).seq = .fail ∧ (pending (at_ .fail) .pass).hostTodo = .pass :: []) := by decide

theorem witness_ValidateChecksThenDispatches :
    (started 1#32).hostTodo = [] ∧ (started 1#32).seq = .validate := by decide

theorem witness_GeneralBlockHasTheWireLayout : ([0x61] : List Byte) ≠ [] := by decide

/-- One witness for each case: a general block, the zero-length block at the least capacity, and the default CRC. -/
theorem witness_EveryBlockKeepsTheHeaderInvariants :
    ([0x61] : List Byte).length ≤ 65280 ∧ 29 ≤ 65536 ∧ (compressBlock testConfig [0x61] 6 29).isSome = true ∧
      ([] : List Byte).length ≤ 65280 ∧ 28 ≤ 65536 ∧ compressBlock testConfig [] 6 28 = some eofMarker ∧
      testConfig.UsesGzipCrc := by
  refine ⟨by decide, by decide, by decide, by decide, by decide, by decide, rfl, fun _ _ => rfl, fun _ => rfl⟩

/-- The last clause's hypotheses are met by the empty chunk, whatever the compressor. -/
theorem witness_BlockStepEmitsOneBlockOrFails :
    ((atWithA .block).seq = .block ∧ (atWithA .block).input.slice 0 (atWithA .block).nL = some [0x61]) ∧
      ((at_ .block).seq = .block ∧ (at_ .block).input.slice 0 (at_ .block).nL = some [] ∧
        compressBlock Config.hw [] (sint32 (at_ .block).lvlL) (at_ .block).capL = some eofMarker ∧
        (at_ .block).out.wf ∧ (at_ .block).outLen = 0) :=
  ⟨by decide, rfl, rfl, rfl, Memory.wf_nil, rfl⟩

theorem witness_BlockOfEmptyChunkCompletes :
    ({ at_ .block with capL := 28 } : State).seq = .block ∧ ({ at_ .block with capL := 28 } : State).nL = 0 ∧
      28 ≤ ({ at_ .block with capL := 28 } : State).capL := by decide

/-- Both clauses, at the bounds 65280, 65536 and at the level 10. -/
theorem witness_BlockReportsIllegalLevelAsCompressFailed :
    (({ at_ .validate with nL := 65280 } : State).seq = .validate ∧
        ({ at_ .validate with nL := 65280 } : State).nL ≤ 65280 ∧
        ({ at_ .validate with nL := 65280 } : State).capL ≤ 65536) ∧
      (({ atWithA .block with lvlL := 10#32 } : State).seq = .block ∧
        ({ atWithA .block with lvlL := 10#32 } : State).input.slice 0 1 = some [0x61] ∧
        ({ atWithA .block with lvlL := 10#32 } : State).nL = 1 ∧ ([0x61] : List Byte) ≠ [] ∧
        ¬(-1 ≤ ({ atWithA .block with lvlL := 10#32 } : State).lvlL.toInt ∧
          ({ atWithA .block with lvlL := 10#32 } : State).lvlL.toInt ≤ 9)) := by decide

/-- A function that keeps the contract of `DEFLATE`, and answers. -/
def oneByteAnswer (_ : List Byte) (l : Int) (sp : Nat) : Option (List Byte) :=
  if 1 ≤ sp ∧ -1 ≤ l ∧ l ≤ 9 then some [0x00] else none

theorem oneByteAnswer_contract (ch : List Byte) (l : Int) (sp : Nat) (p : List Byte)
    (h : oneByteAnswer ch l sp = some p) : 1 ≤ p.length ∧ p.length ≤ sp ∧ -1 ≤ l ∧ l ≤ 9 := by
  unfold oneByteAnswer at h
  split at h
  · rename_i hc
    cases h
    exact ⟨le_refl 1, hc⟩
  · cases h

theorem witness_PortsKeepExactlyTheirContracts :
    testConfig.deflate [0x61] 9 3 = some [0x4B, 0x04, 0x00] ∧ (testConfig.gzipStream [0x61] 9 27).isSome = true ∧
      (∀ ch l sp p, oneByteAnswer ch l sp = some p → 1 ≤ p.length ∧ p.length ≤ sp ∧ -1 ≤ l ∧ l ≤ 9) ∧
      (∀ i l sp g, oneByteAnswer i l sp = some g → 1 ≤ g.length ∧ g.length ≤ sp) ∧
      oneByteAnswer [] 9 1 = some [0x00] :=
  ⟨by decide, by decide, oneByteAnswer_contract,
    fun i l sp g h => ⟨(oneByteAnswer_contract i l sp g h).1, (oneByteAnswer_contract i l sp g h).2.1⟩, by decide⟩

theorem witness_CrcAccumulatesByteByByte : testConfig.UsesGzipCrc :=
  ⟨rfl, fun _ _ => rfl, fun _ => rfl⟩

theorem witness_ChunkStepAppendsOneBlockOrFails :
    (atWithA .chunk).seq = .chunk ∧ 0 < (atWithA .chunk).nL - (atWithA .chunk).off ∧
      (atWithA .chunk).input.slice (atWithA .chunk).off
        (min ((atWithA .chunk).nL - (atWithA .chunk).off) 65280) = some [0x61] ∧
      (compressBlock testConfig [0x61] (sint32 (atWithA .chunk).lvlL) 65536).isSome = true := by decide

/-- An output so long that no request for more fits a register. -/
def fullOutput (q : SeqState) : State := { atWithA q with outLen := 2 ^ Config.hw.lenBits }

theorem grants_fullOutput (q : SeqState) (n : Nat) :
    Config.hw.grants (fullOutput q).draws ((fullOutput q).outLen + n) = false := by
  simp [Config.grants, fullOutput]

theorem witness_DeniedGrowRequestFailsTheChunk :
    2 ^ testConfig.lenBits ≤ 2 ^ 17 ∧
      ((fullOutput .chunk).seq = .chunk ∧ 0 < (fullOutput .chunk).nL - (fullOutput .chunk).off ∧
        Config.hw.grants (fullOutput .chunk).draws ((fullOutput .chunk).outLen + 65536) = false) :=
  ⟨by decide, rfl, by decide, grants_fullOutput .chunk 65536⟩

theorem witness_ChunkLoopIsLeftWhenNothingRemains :
    (at_ .chunk).seq = .chunk ∧ (at_ .chunk).nL - (at_ .chunk).off = 0 := by decide

theorem witness_EofStepAppendsTheMarkerWhenRequested : (at_ .eof).seq = .eof := by decide

theorem witness_GzipStepAppendsTheStreamOrFails :
    (atWithA .gzip).seq = .gzip ∧ (atWithA .gzip).input.slice 0 (atWithA .gzip).nL = some [0x61] ∧
      (testConfig.gzipStream [0x61] (sint32 (atWithA .gzip).lvlL) ((atWithA .gzip).nL + 26)).isSome = true := by decide

/-- At the largest length a register can hold. -/
theorem witness_GzipOfUnreservableSizeIsDenied :
    ({ at_ .gzip with nL := 2 ^ Config.hw.lenBits - 1 } : State).seq = .gzip ∧
      2 ^ Config.hw.lenBits ≤ ({ at_ .gzip with nL := 2 ^ Config.hw.lenBits - 1 } : State).nL + 26 :=
  ⟨rfl, by simp only; omega⟩

theorem witness_GzipCompletesWhenAnswered :
    (atWithA .gzip).seq = .gzip ∧ (atWithA .gzip).input.slice 0 (atWithA .gzip).nL = some [0x61] ∧
      testConfig.grants (atWithA .gzip).draws ((atWithA .gzip).nL + 26) = true ∧
      (testConfig.gzipStream [0x61] (sint32 (atWithA .gzip).lvlL) ((atWithA .gzip).nL + 26)).isSome = true := by decide

/-- A step that fails, in each of three states; the denied ones need no answer of a collaborator. -/
theorem witness_FailureRecordSaysWhichStepFailed :
    (∃ t, exec (.bgzf false true) (at_ .validate) = .next t ∧ t.seq = .fail) ∧
      (∃ t, exec (.block false false) { at_ .block with capL := 27 } = .next t ∧ t.seq = .fail) ∧
      (∃ t, exec (.bgzf false false) (fullOutput .chunk) = .next t ∧ t.seq = .fail) ∧
      ∃ t, exec (.bgzf true false) (fullOutput .eof) = .next t ∧ t.seq = .fail := by
  refine ⟨⟨_, rfl, rfl⟩, ⟨_, rfl, rfl⟩, ⟨(fullOutput .chunk).drawn.failWith .resourceExhausted 0, ?_, rfl⟩,
    ⟨(fullOutput .eof).drawn.failWith .resourceExhausted 0, ?_, rfl⟩⟩
  · rw [exec_eq_execWith]
    show stepChunk Config.hw (fullOutput .chunk) = _
    unfold stepChunk
    rw [if_neg (by decide), if_neg (by rw [grants_fullOutput]; decide)]
    rfl
  · rw [exec_eq_execWith]
    show stepEof Config.hw true (fullOutput .eof) = _
    unfold stepEof
    rw [if_pos rfl, if_neg (by rw [grants_fullOutput]; decide)]
    rfl

theorem witness_OnlyMissingInputIsRefused :
    ({ at_ .block with nL := 1 } : State).input.wf ∧
      exec (.block false false) { at_ .block with nL := 1 } = .refused .inputNotSupplied :=
  ⟨Memory.wf_nil, rfl⟩

/-- One step of each operation that answers a next state. -/
theorem witness_NoOperationWritesOperandsOrInput :
    (∃ t, exec (.block false false) (at_ .block) = .next t) ∧
      (∃ t, exec (.bgzf false false) (at_ .eof) = .next t) ∧
      ∃ t, exec (.gzip false false) (at_ .validate) = .next t :=
  ⟨⟨_, rfl⟩, ⟨_, rfl⟩, ⟨_, rfl⟩⟩

/-- The empty chunk's block: it appends, it does not fail, and nothing was there before. -/
theorem witness_OperationsOnlyAppend :
    ∃ t, exec (.block false false) (at_ .block) = .next t ∧ t.seq = .done ∧ t.seq ≠ .fail ∧ (at_ .block).outLen = 0 ∧
      (at_ .block).outLen < t.outLen :=
  ⟨_, rfl, by decide, by decide, by decide, by decide⟩

theorem witness_OffsetMovesOnlyWithAnAppendedChunk :
    (∃ t, exec (.block false false) (at_ .block) = .next t) ∧
      (∃ t, exec (.gzip false false) (at_ .validate) = .next t) ∧
      ∃ t, exec (.bgzf false false) (at_ .chunk) = .next t :=
  ⟨⟨_, rfl⟩, ⟨_, rfl⟩, ⟨_, rfl⟩⟩

/-- A step of `GZIP` out of validation meets the hypotheses of all three clauses. -/
theorem witness_StatusRecordChangesOnlyOnFailure :
    ∃ t, exec (.gzip false false) (at_ .validate) = .next t ∧ t.seq ≠ .fail ∧ (at_ .validate).seq = .validate ∧
      ∃ e n, Instr.gzip false false = .gzip e n :=
  ⟨_, rfl, by decide, rfl, false, false, rfl⟩

/-- The doorbell after reset, and the step that enters `S_VALIDATE`. -/
theorem witness_StartLatchesOperandsAndClears :
    (pending State.reset (.write 0 (6#32).toNat)).hostTodo = .write 0 (6#32).toNat :: [] ∧
      (pending State.reset (.write 0 (6#32).toNat)).busy = false ∧
      (State.reset.input.slice 0 State.reset.inLen).isSome = true ∧
      ((11#32).getLsbD 3 = true ∧ (pending State.reset (.write 0 (11#32).toNat)).busy = false) ∧
      (pending State.reset (.write 0 (6#32).toNat)).seq ≠ .validate ∧
      ∃ t, step (pending State.reset (.write 0 (6#32).toNat)) = .next t ∧ t.seq = .validate :=
  ⟨rfl, rfl, rfl, ⟨by decide, rfl⟩, by decide, _, rfl, rfl⟩

/-- One byte announced beyond the one supplied, at the boundary. -/
def shortInput : State := { State.reset with inLen := 2, input := [(0, 0x61)] }

theorem witness_StartWithoutItsInputIsRefused :
    (pending shortInput (.write 0 (2#32).toNat)).hostTodo = .write 0 (2#32).toNat :: [] ∧
      (pending shortInput (.write 0 (2#32).toNat)).busy = false ∧ (2#32).getLsbD 3 = false ∧
      (pending shortInput (.write 0 (2#32).toNat)).input.wf ∧
      1 < (pending shortInput (.write 0 (2#32).toNat)).inLen ∧
      (pending shortInput (.write 0 (2#32).toNat)).input.read 1 = none := by decide

theorem witness_DoorbellWhileBusyIsDropped :
    (pending (at_ .chunk) (.write 0 (3#32).toNat)).hostTodo = .write 0 (3#32).toNat :: [] ∧
      (pending (at_ .chunk) (.write 0 (3#32).toNat)).busy = true := by decide

/-- Each clause, at the largest value the register holds, and at the first index that is ignored. -/
theorem witness_OperandRegistersTakeTheValueWritten :
    (pending (at_ .chunk) (.write 1 (0xFFFFFFFF#32).toNat)).hostTodo = .write 1 (0xFFFFFFFF#32).toNat :: [] ∧
      (2 ^ Config.hw.lenBits - 1 < 2 ^ Config.hw.lenBits ∧
        (pending State.reset (.write 2 (2 ^ Config.hw.lenBits - 1))).hostTodo =
          .write 2 (2 ^ Config.hw.lenBits - 1) :: []) ∧
      (pending State.reset (.write 3 (2 ^ Config.hw.lenBits - 1))).hostTodo =
        .write 3 (2 ^ Config.hw.lenBits - 1) :: [] ∧
      (4 ≤ 4 ∧ (pending State.reset (.write 4 5)).hostTodo = .write 4 5 :: []) :=
  ⟨rfl, ⟨Nat.sub_lt (Nat.two_pow_pos _) Nat.one_pos, rfl⟩, rfl, le_refl 4, rfl⟩

/-- A read of each kind: any index, and `OUT_LEN` and `ERR_OFFSET` both busy and not. -/
theorem witness_RegisterReadsReturnTheRegister :
    (∀ i, (pending finished (.read i)).hostTodo = .read i :: []) ∧ (pending finished (.read 5)).busy = false ∧
      (pending (at_ .chunk) (.read 6)).hostTodo = .read 6 :: [] ∧ (pending (at_ .chunk) (.read 6)).busy = true :=
  ⟨fun _ => rfl, rfl, rfl, rfl⟩

/-- A `BGZF` command with its marker bit, about to leave the loop on an empty input, meets the invariant. -/
def leavingLoop : State := { at_ .chunk with cmdL := 6#32 }

theorem leavingLoop_inv : leavingLoop.Inv Config.hw where
  widths := by
    have h := Config.two_pow_17_le Config.hw
    constructor <;> simp only [leavingLoop, at_, State.reset] <;> omega
  inputWf := Memory.wf_nil
  supplied := fun _ _ => rfl
  outWf := Memory.wf_nil
  offLe := by decide
  outLenLe := by decide
  outListed := fun _ a => by simp [leavingLoop, at_, State.reset]
  noRecord := fun _ => by decide
  record := fun h => by cases h
  recordOffset := by decide
  fresh := fun h => by rcases h with h | h | h <;> cases h
  inBlock := fun h => by cases h
  inBgzf := fun _ => ⟨⟨true, by decide⟩, by decide⟩
  inGzip := fun h => by cases h
  chunkStart := fun _ => by decide
  allConsumed := fun h => by cases h

theorem witness_StatusTakesFourteenValues : leavingLoop.Inv Config.hw := leavingLoop_inv

theorem witness_EveryStepKeepsInvariant : leavingLoop.Inv Config.hw ∧ ∃ t, step leavingLoop = .next t ∧ t.seq = .eof :=
  ⟨leavingLoop_inv, _, rfl, rfl⟩

theorem pending_inv {c : Config} {s : State} (line : HostLine) (h : s.Inv c) : (pending s line).Inv c :=
  ⟨⟨h.widths.1, h.widths.2, h.widths.3, h.widths.4, h.widths.5, h.widths.6, h.widths.7, h.widths.8⟩, h.inputWf,
    h.supplied, h.outWf, h.offLe, h.outLenLe, h.outListed, h.noRecord, h.record, h.recordOffset, h.fresh, h.inBlock,
    h.inBgzf, h.inGzip, h.chunkStart, h.allConsumed⟩

/-- A busy state with its input, whose host tries to change it, and one whose host writes too wide a word. -/
theorem witness_RefusalsAnswerOnlyTheHost :
    (pending leavingLoop (.input [0x61])).Inv Config.hw ∧
      step (pending leavingLoop (.input [0x61])) = .refused .inputChangedWhileBusy ∧
      (pending leavingLoop (.write 1 (2 ^ 32))).Inv Config.hw ∧
      step (pending leavingLoop (.write 1 (2 ^ 32))) = .refused .valueDoesNotFit :=
  ⟨pending_inv _ leavingLoop_inv, rfl, pending_inv _ leavingLoop_inv, rfl⟩

theorem witness_NoStepFaultsUnderInvariant : leavingLoop.Inv Config.hw := leavingLoop_inv

/-- A busy step that keeps the latches, a START and a reset. -/
theorem witness_LatchesChangeOnlyAtStartOrReset :
    (∃ t, step leavingLoop = .next t) ∧ (∃ t, step (pending finished (.write 0 6)) = .next t) ∧
      ∃ t, step (pending finished .reset) = .next t :=
  ⟨⟨_, rfl⟩, ⟨_, rfl⟩, ⟨_, rfl⟩⟩

/-- A finished command and a failed one; steps that keep them, and the two ways out. -/
theorem witness_FinishedStatesAreLeftOnlyByStartOrReset :
    finished.seq = .done ∧ (∃ t, step finished = .next t ∧ t.seq = .done) ∧
      (pending (at_ .fail) (.write 0 6)).seq = .fail ∧
      (∃ t, step (pending (at_ .fail) (.write 0 6)) = .next t ∧ t.seq = .validate) ∧
      (pending (at_ .fail) .reset).seq = .fail ∧ ∃ t, step (pending (at_ .fail) .reset) = .next t ∧ t.seq = .idle :=
  ⟨rfl, ⟨_, rfl, rfl⟩, rfl, ⟨_, rfl, rfl⟩, rfl, _, rfl, rfl⟩

theorem witness_ResetInputRestoresEveryRegister :
    (pending (atWithA .chunk) .reset).hostTodo = .reset :: [] := by decide

/-- Both clauses: busy and not. -/
theorem witness_InputIsStableWhileBusy :
    ((pending (at_ .chunk) (.input [0x61])).hostTodo = .input [0x61] :: [] ∧
        (pending (at_ .chunk) (.input [0x61])).busy = true) ∧
      ((pending finished (.input [0x61])).hostTodo = .input [0x61] :: [] ∧
        (pending finished (.input [0x61])).busy = false) := by decide

/-- Each clause: the one byte of a result read and taken, and a failed command's record. -/
theorem witness_HostReadsTheResult :
    ((pending finished (.readOut 0 1)).hostTodo = .readOut 0 1 :: [] ∧ (pending finished (.readOut 0 1)).seq = .done ∧
        (pending finished (.readOut 0 1)).out.wf ∧ 0 + 1 ≤ (pending finished (.readOut 0 1)).outLen ∧
        (pending finished (.readOut 0 1)).out.slice 0 1 = some [0x07]) ∧
      ((pending finished .takeResult).hostTodo = .takeResult :: [] ∧ (pending finished .takeResult).seq = .done ∧
        (pending finished .takeResult).out.wf ∧
        (pending finished .takeResult).out.slice 0 (pending finished .takeResult).outLen = some [0x07]) ∧
      ((pending (at_ .fail) .takeResult).hostTodo = .takeResult :: [] ∧
        (pending (at_ .fail) .takeResult).seq = .fail) := by decide

/-- Two states with different histories that agree on what a command reads. -/
theorem witness_CommandsAreStateless :
    State.reset.level = finished.level ∧ State.reset.inLen = finished.inLen ∧ State.reset.cap = finished.cap ∧
      State.reset.input = finished.input ∧ State.reset.draws = finished.draws ∧ State.reset.hostTodo = [] ∧
      finished.hostTodo = [] ∧ State.reset ≠ finished := by decide

theorem testConfig_grants (draw : Nat) : testConfig.GrantsFrom draw := fun k n h => by
  simp only [Config.grants, decide_eq_true h, Bool.true_and]
  rfl

theorem started_startedWith (i : Instr) : (started (encode i)).StartedWith i [0x61] where
  seq := rfl
  word := rfl
  length := rfl
  input := by show Memory.slice [(0, 0x61)] 0 1 = some [0x61]; decide
  off := rfl
  outLen := rfl
  outCap := rfl
  out := rfl
  err := rfl
  stage := rfl
  errOffset := rfl
  hostTodo := rfl

theorem started_input_wf (w : Word) : (started w).input.wf := by
  show Memory.wf [(0, 0x61)]
  decide

/-- A `BGZF` command on "a" with every request granted. -/
theorem witness_BgzfCommandComputesItsEncoding :
    (started (encode (.bgzf true false))).StartedWith (.bgzf true false) [0x61] ∧
      (started (encode (.bgzf true false))).input.wf ∧
      testConfig.GrantsFrom (started (encode (.bgzf true false))).draws ∧
      65536 * chunkCount ([0x61] : List Byte).length + 28 < 2 ^ testConfig.lenBits :=
  ⟨started_startedWith _, started_input_wf _, testConfig_grants _, by decide⟩

theorem witness_BgzfCommandAlwaysEnds :
    (started (encode (.bgzf true false))).StartedWith (.bgzf true false) [0x61] ∧
      (started (encode (.bgzf true false))).input.wf :=
  ⟨started_startedWith _, started_input_wf _⟩

/-- The three outcomes of a `GZIP` command all arise: an answer, no answer, and an illegal level. -/
theorem witness_GzipCommandComputesItsEncoding :
    (started (encode (.gzip true false))).StartedWith (.gzip true false) [0x61] ∧
      (started (encode (.gzip true false))).input.wf ∧
      testConfig.grants (started (encode (.gzip true false))).draws (([0x61] : List Byte).length + 26) = true ∧
      (gzipEncode testConfig [0x61] 9).toOption.isSome = true ∧
      gzipEncode testConfig [0x62] 9 = .error .compressFailed ∧
      gzipEncode testConfig [0x61] 10 = .error .invalidArgument :=
  ⟨started_startedWith _, started_input_wf _, by decide, by decide, rfl, rfl⟩

/-- A `BLOCK` command inside its domain. -/
theorem witness_BlockCommandComputesItsBlock :
    (started (encode (.block true false))).StartedWith (.block true false) [0x61] ∧
      (started (encode (.block true false))).input.wf ∧
      ¬(([0x61] : List Byte).length > 65280 ∨ (started (encode (.block true false))).capL > 65536) ∧
      (compressBlock testConfig [0x61] (sint32 (started (encode (.block true false))).lvlL)
        (started (encode (.block true false))).capL).isSome = true :=
  ⟨started_startedWith _, started_input_wf _, by decide, by decide⟩

/-- A platform whose gzip compressor copies a non-empty input: a decoder that copies makes it sound. -/
def copyGzipConfig : Config :=
  { testConfig with gzipAnswer := fun i _ _ => some i }

theorem copyGzipConfig_sound : copyGzipConfig.GzipSound some := by
  intro i l sp g h
  simp only [Config.gzipStream, copyGzipConfig] at h
  split at h <;> simp_all

theorem witness_GzipOutputDecodesToTheInput :
    copyGzipConfig.GzipSound some ∧ (started (encode (.gzip false false))).StartedWith (.gzip false false) [0x61] ∧
      (started (encode (.gzip false false))).input.wf ∧
      ∃ t, Host.Core.run (coreWith copyGzipConfig) 2 (started (encode (.gzip false false))) = .next t ∧
        t.seq = .done :=
  ⟨copyGzipConfig_sound, started_startedWith _, started_input_wf _, _, rfl, rfl⟩

theorem witness_ChunksPartitionTheInput :
    0 < (chunks [0x61]).length ∧ ([0x61] : List Byte) ∈ chunks [0x61] := by decide

theorem witness_EncodingLengthIsBounded : (bgzfEncode testConfig [0x61] 9 true).toOption.isSome = true := by decide

/-- The bounds of the legal levels, and the first level beyond each. -/
theorem witness_EofMarkerIsOnlyAppended :
    ((-1 : Int) ≤ -1 ∧ (-1 : Int) ≤ 9) ∧ ((-1 : Int) ≤ 9 ∧ (9 : Int) ≤ 9) ∧ ¬((-1 : Int) ≤ 10 ∧ (10 : Int) ≤ 9) ∧
      ¬((-1 : Int) ≤ -2 ∧ (-2 : Int) ≤ 9) := by decide

theorem copyConfig_sound : copyConfig.DeflateSound (fun p => some (p, p.length)) := by
  intro chunk l sp p h
  obtain ⟨-, h1, -⟩ := Config.deflate_contract h
  simp only [Config.deflate, copyConfig] at h
  split at h <;> simp_all

theorem copyConfig_fits : copyConfig.DeflateFits := by
  intro chunk l h1 h2 h3
  have h4 : chunk.length ≤ 65510 := by omega
  simp [Config.deflate, copyConfig, h1, h3, h4]

/-- A sound compressor with a successful encoding, and a compressor that fits. -/
theorem witness_EncodingReadsBackToTheInput :
    copyConfig.DeflateSound (fun p => some (p, p.length)) ∧ (bgzfEncode copyConfig [0x61] 9 false).toOption.isSome = true ∧
      copyConfig.DeflateFits ∧ levelLegal 9 = true :=
  ⟨copyConfig_sound, by decide, copyConfig_fits, by decide⟩

/-- The lines of `compress` on "a" and on null content, pending after reset. -/
theorem witness_CompressReturnsTheEncoding :
    (∃ lines, compressLines (some [0x61]) 9 true = some lines ∧
        ({ State.reset with hostTodo := lines } : State).hostTodo = lines ∧
        ({ State.reset with hostTodo := lines } : State).busy = false ∧
        testConfig.GrantsFrom ({ State.reset with hostTodo := lines } : State).draws ∧
        65536 * chunkCount ([0x61] : List Byte).length + 28 < 2 ^ testConfig.lenBits ∧
        ([0x61] : List Byte).length < 2 ^ testConfig.lenBits) ∧
      ∃ lines, compressLines none 9 false = some lines ∧
        ({ State.reset with hostTodo := lines } : State).hostTodo = lines ∧
        ({ State.reset with hostTodo := lines } : State).busy = false :=
  ⟨⟨_, rfl, rfl, rfl, testConfig_grants _, by decide, by decide⟩, ⟨_, rfl, rfl, rfl⟩⟩

/-- The lines of `gzip_compress` on "a" and on null content, pending after reset. -/
theorem witness_GzipCompressReturnsTheStream :
    (∃ lines, gzipCompressLines (some [0x61]) 9 = some lines ∧
        ({ State.reset with hostTodo := lines } : State).hostTodo = lines ∧
        ({ State.reset with hostTodo := lines } : State).busy = false ∧
        testConfig.grants ({ State.reset with hostTodo := lines } : State).draws
          (([0x61] : List Byte).length + 26) = true ∧
        ([0x61] : List Byte).length < 2 ^ testConfig.lenBits) ∧
      ∃ lines, gzipCompressLines none 9 = some lines ∧
        ({ State.reset with hostTodo := lines } : State).hostTodo = lines ∧
        ({ State.reset with hostTodo := lines } : State).busy = false :=
  ⟨⟨_, rfl, rfl, rfl, by decide, by decide⟩, ⟨_, rfl, rfl, rfl⟩⟩

end Sys2Proof.Tests
end

/-! The scope file's statements: the packing functions (O6), the machine as the configured machine (O9), and the
statelessness of commands (O49). -/

namespace Sys2Proof.Machine

/-! ### Packing functions (00_scope R13) -/

/-- In its domain `le16` loses nothing: the high byte is the whole quotient. -/
theorem le16_map_toNat {v : Nat} (h : v < 2 ^ 16) : (le16 v).map BitVec.toNat = [v % 256, v / 256] := by
  have hhigh : v / 256 < 256 := by omega
  simp [le16, Nat.mod_eq_of_lt hhigh]

theorem le32_map_toNat (v : Nat) :
    (le32 v).map BitVec.toNat = [v % 256, v / 2 ^ 8 % 256, v / 2 ^ 16 % 256, v / 2 ^ 24 % 256] := by
  simp [le32]

theorem sint32_of_lt {w : Word} (h : w.toNat < 2 ^ 31) : sint32 w = w.toNat := if_pos h

theorem sint32_of_not_lt {w : Word} (h : ¬ w.toNat < 2 ^ 31) : sint32 w = (w.toNat : Int) - 2 ^ 32 := if_neg h

/-! ### The machine is the configured machine (00_scope R9) -/

theorem step_eq_stepWith (s : State) : step s = stepWith Config.hw s := by
  have hexec : exec = execWith Config.hw := funext fun i => funext fun s => exec_eq_execWith i s
  rw [step, hexec, stepWith]

/-! ### Steps and runs see a state only through its command view (00_scope R11)

Comparing a step from `s` with the step from `s.commandView` makes noninterference one equation a function; two states
of equal view are then compared through the view they share. -/

/-- An outcome with its next state seen through the command view, so that `sameOutcome` at that view becomes an
equation to rewrite with. -/
def commandOutcome : Host.Outcome State Fault Refusal → Host.Outcome State Fault Refusal
  | .next s => .next s.commandView
  | .fault r => .fault r
  | .refused r => .refused r

/-- Outcomes of equal view are next states of equal view, or stop for the same reason. -/
theorem commandOutcome_eq_cases {a b : Host.Outcome State Fault Refusal} (h : commandOutcome a = commandOutcome b) :
    (∃ s t, a = .next s ∧ b = .next t ∧ s.commandView = t.commandView) ∨ (∃ r, a = .fault r ∧ b = .fault r) ∨
      ∃ r, a = .refused r ∧ b = .refused r := by
  match a, b, h with
  | .next s, .next t, h => exact .inl ⟨s, t, rfl, rfl, Host.Outcome.next.inj h⟩
  | .fault r, .fault _, rfl => exact .inr (.inl ⟨r, rfl, rfl⟩)
  | .refused r, .refused _, rfl => exact .inr (.inr ⟨r, rfl, rfl⟩)

/-- Two conditionals on one condition agree under a function when their branches do. -/
theorem apply_ite_congr {α β : Type} (f : α → β) {p : Prop} [Decidable p] {a b a' b' : α}
    (ha : f a = f a') (hb : f b = f b') : f (if p then a else b) = f (if p then a' else b') := by
  split <;> assumption

/-! What a step reads of a state, it reads of the command view too. -/

@[simp] theorem State.commandView_seq (s : State) : s.commandView.seq = s.seq := rfl
@[simp] theorem State.commandView_cmdL (s : State) : s.commandView.cmdL = s.cmdL := rfl
@[simp] theorem State.commandView_levelL (s : State) : s.commandView.levelL = s.levelL := rfl
@[simp] theorem State.commandView_nL (s : State) : s.commandView.nL = s.nL := rfl
@[simp] theorem State.commandView_capL (s : State) : s.commandView.capL = s.capL := rfl
@[simp] theorem State.commandView_off (s : State) : s.commandView.off = s.off := rfl
@[simp] theorem State.commandView_chunkSize (s : State) : s.commandView.chunkSize = s.chunkSize := rfl
@[simp] theorem State.commandView_input (s : State) : s.commandView.input = s.input := rfl
@[simp] theorem State.commandView_hostTodo (s : State) : s.commandView.hostTodo = s.hostTodo := rfl

/-! ### The engine's steps -/

theorem State.validateBlock_commandView (s : State) (null : Bool) :
    (s.validateBlock null).commandView = (s.commandView.validateBlock null).commandView :=
  apply_ite_congr State.commandView rfl (apply_ite_congr State.commandView rfl rfl)

theorem State.validateBgzf_commandView (s : State) (null : Bool) :
    (s.validateBgzf null).commandView = (s.commandView.validateBgzf null).commandView :=
  apply_ite_congr State.commandView rfl (apply_ite_congr State.commandView rfl rfl)

theorem State.validateGzip_commandView (s : State) (null : Bool) :
    (s.validateGzip null).commandView = (s.commandView.validateGzip null).commandView :=
  apply_ite_congr State.commandView rfl (apply_ite_congr State.commandView rfl rfl)

/-- The temporaries that `blockTemporaries` writes are outside the view. -/
theorem stepBlock_commandView (c : Config) (s : State) :
    commandOutcome (stepBlock c s) = commandOutcome (stepBlock c s.commandView) := by
  simp only [stepBlock, State.commandView_input, State.commandView_nL, State.commandView_capL,
    State.commandView_levelL]
  cases s.input.slice 0 s.nL with
  | none => rfl
  | some ch =>
    dsimp only
    cases compressBlock c ch s.levelL s.capL with
    | none => simp [commandOutcome, State.failWith, State.commandView, State.forgetTemporaries]
    | some b => simp [commandOutcome, State.append, State.commandView, State.forgetTemporaries]

theorem stepChunk_commandView (c : Config) (s : State) :
    commandOutcome (stepChunk c s) = commandOutcome (stepChunk c s.commandView) := by
  refine apply_ite_congr commandOutcome rfl (apply_ite_congr commandOutcome ?_ rfl)
  simp only [State.commandView_input, State.commandView_off, State.commandView_chunkSize, State.commandView_levelL]
  cases s.input.slice s.off s.chunkSize with
  | none => rfl
  | some ch =>
    dsimp only
    cases compressBlock c ch s.levelL blockMax with
    | none => simp [commandOutcome, State.failWith, State.commandView, State.forgetTemporaries]
    | some b => simp [commandOutcome, State.append, State.commandView, State.forgetTemporaries]

theorem stepEof_commandView (c : Config) (e : Bool) (s : State) :
    commandOutcome (stepEof c e s) = commandOutcome (stepEof c e s.commandView) :=
  apply_ite_congr commandOutcome (apply_ite_congr commandOutcome rfl rfl) rfl

theorem stepGzip_commandView (c : Config) (s : State) :
    commandOutcome (stepGzip c s) = commandOutcome (stepGzip c s.commandView) := by
  refine apply_ite_congr commandOutcome ?_ rfl
  simp only [State.commandView_input, State.commandView_nL, State.commandView_levelL]
  cases s.input.slice 0 s.nL with
  | none => rfl
  | some i =>
    dsimp only
    cases c.gzipStream i s.levelL (s.nL + gzipMargin) <;> rfl

theorem execWith_commandView (c : Config) (i : Instr) (s : State) :
    commandOutcome (execWith c i s) = commandOutcome (execWith c i s.commandView) := by
  cases i with
  | block e n =>
    simp only [execWith, execBlockWith, State.commandView_seq]
    cases s.seq with
    | validate => exact congrArg Host.Outcome.next (s.validateBlock_commandView n)
    | block => exact stepBlock_commandView c s
    | idle | chunk | eof | gzip | done | fail => rfl
  | bgzf e n =>
    simp only [execWith, execBgzfWith, State.commandView_seq]
    cases s.seq with
    | validate => exact congrArg Host.Outcome.next (s.validateBgzf_commandView n)
    | chunk => exact stepChunk_commandView c s
    | eof => exact stepEof_commandView c e s
    | idle | block | gzip | done | fail => rfl
  | gzip e n =>
    simp only [execWith, execGzipWith, State.commandView_seq]
    cases s.seq with
    | validate => exact congrArg Host.Outcome.next (s.validateGzip_commandView n)
    | gzip => exact stepGzip_commandView c s
    | idle | chunk | eof | block | done | fail => rfl

theorem rejectReserved_commandView (s : State) :
    commandOutcome (rejectReserved s) = commandOutcome (rejectReserved s.commandView) := by
  simp only [rejectReserved, State.commandView_seq]
  cases s.seq <;> rfl

theorem engineTurn_commandView (c : Config) (s : State) :
    commandOutcome (engineTurn (execWith c) s) = commandOutcome (engineTurn (execWith c) s.commandView) := by
  refine apply_ite_congr commandOutcome ?_ rfl
  simp only [State.commandView_cmdL]
  cases decode s.cmdL with
  | ok i => exact execWith_commandView c i s
  | error e => exact rejectReserved_commandView s

/-! ### The host's actions -/

theorem hostInput_commandView (bytes : List Byte) (s : State) :
    commandOutcome (hostInput bytes s) = commandOutcome (hostInput bytes s.commandView) :=
  apply_ite_congr commandOutcome rfl rfl

theorem hostDoorbell_commandView (w : Word) (s : State) :
    commandOutcome (hostDoorbell w s) = commandOutcome (hostDoorbell w s.commandView) :=
  apply_ite_congr commandOutcome rfl (apply_ite_congr commandOutcome rfl rfl)

theorem hostWrite_commandView (c : Config) (index value : Nat) (s : State) :
    commandOutcome (hostWrite c index value s) = commandOutcome (hostWrite c index value s.commandView) := by
  match index with
  | 0 => exact apply_ite_congr commandOutcome (hostDoorbell_commandView _ s) rfl
  | 1 | 2 | 3 => exact apply_ite_congr commandOutcome rfl rfl
  | _ + 4 => rfl

/-- What a taken result records differs only in `hostSaw`, which the view forgets. -/
theorem hostTakeResult_commandView (c : Config) (s : State) :
    (hostTakeResult c s).commandView = (hostTakeResult c s.commandView).commandView := by
  simp only [hostTakeResult, State.commandView_seq]
  cases s.seq <;> rfl

/-- Whoever moves next, the datapath temporaries and the record of the host's reads have no influence on a step
(10_state R26, R27). -/
theorem stepWith_commandView (c : Config) (s : State) :
    commandOutcome (stepWith c s) = commandOutcome (stepWith c s.commandView) := by
  simp only [stepWith, turn, State.commandView_hostTodo]
  cases s.hostTodo with
  | nil => exact engineTurn_commandView c s
  | cons line rest =>
    cases line with
    | wait => exact apply_ite_congr commandOutcome (engineTurn_commandView c s) rfl
    | pass => exact engineTurn_commandView c { s with hostTodo := rest }
    | input bytes => exact hostInput_commandView bytes { s with hostTodo := rest }
    | write index value => exact hostWrite_commandView c index value { s with hostTodo := rest }
    | takeResult => exact congrArg Host.Outcome.next (hostTakeResult_commandView c { s with hostTodo := rest })
    | read | readOut | reset => rfl

/-- States of equal command view step alike. -/
theorem stepWith_eq_of_commandView_eq (c : Config) {s t : State} (h : s.commandView = t.commandView) :
    commandOutcome (stepWith c s) = commandOutcome (stepWith c t) := by
  rw [stepWith_commandView c s, h, ← stepWith_commandView c t]

/-! ### Runs -/

/-- A run ends at a fault, however many steps it is given. -/
theorem run_succ_of_fault {c : Config} {s : State} {r : Fault} (k : Nat) (h : stepWith c s = .fault r) :
    Host.Core.run (coreWith c) (k + 1) s = .fault r := by
  have e : (coreWith c).step s = .fault r := h
  simp only [Host.Core.run, e]

/-- A run ends at a refusal, however many steps it is given. -/
theorem run_succ_of_refused {c : Config} {s : State} {r : Refusal} (k : Nat) (h : stepWith c s = .refused r) :
    Host.Core.run (coreWith c) (k + 1) s = .refused r := by
  have e : (coreWith c).step s = .refused r := h
  simp only [Host.Core.run, e]

/-- Runs from states of equal command view stay alike step by step. -/
theorem run_sameOutcome (c : Config) (k : Nat) {s t : State} (h : s.commandView = t.commandView) :
    sameOutcome State.commandView (Host.Core.run (coreWith c) k s) (Host.Core.run (coreWith c) k t) := by
  induction k generalizing s t with
  | zero => exact h
  | succ k ih =>
    obtain ⟨s', t', hs, ht, hview⟩ | ⟨r, hs, ht⟩ | ⟨r, hs, ht⟩ :=
      commandOutcome_eq_cases (stepWith_eq_of_commandView_eq c h)
    · rw [run_succ k hs, run_succ k ht]
      exact ih hview
    · rw [run_succ_of_fault k hs, run_succ_of_fault k ht]
      rfl
    · rw [run_succ_of_refused k hs, run_succ_of_refused k ht]
      rfl

/-- Of the command view, START keeps only the host's operand registers, `IN` and the model's own fields
(44_host_commands R103, R104). -/
theorem State.start_commandView_eq {s t : State} (w : Word) (hlevel : s.level = t.level) (hinLen : s.inLen = t.inLen)
    (hcap : s.cap = t.cap) (hinput : s.input = t.input) (hdraws : s.draws = t.draws)
    (htodo : s.hostTodo = t.hostTodo) : (s.start w).commandView = (t.start w).commandView := by
  simp [State.commandView, State.forgetTemporaries, hlevel, hinLen, hcap, hinput, hdraws, htodo]

end Sys2Proof.Machine

namespace Sys2Proof.Proofs.Scope

open Sys2Proof.Machine

/-- Settles O6: `le16` needs its domain for the high byte; `le32` cuts every number to 32 bits. -/
theorem packingFunctionsAreLittleEndian : Obligations.PackingFunctionsAreLittleEndian :=
  ⟨fun _ h => le16_map_toNat h, fun v _ => le32_map_toNat v, fun _ => ⟨sint32_of_lt, sint32_of_not_lt⟩⟩

/-- Settles O9: the two turns differ in the meaning of the operations only, which `exec_eq_execWith` identifies. -/
theorem stepIsConfiguredStep : Obligations.StepIsConfiguredStep := step_eq_stepWith

/-- Settles O49: the two started states have one command view, and runs see no more of a state than that. -/
theorem commandsAreStateless : Obligations.CommandsAreStateless := by
  intro c s₁ s₂ w k hlevel hinLen hcap hinput hdraws htodo₁ htodo₂
  have hstart : (s₁.start w).commandView = (s₂.start w).commandView :=
    State.start_commandView_eq w hlevel hinLen hcap hinput hdraws (htodo₁.trans htodo₂.symm)
  exact run_sameOutcome c k hstart

end Sys2Proof.Proofs.Scope

/-! The statements on the engine's state (10_state): what a step of the machine is (O7, O8), where an operation has a
rule (O27, O47), what a step leaves alone (O29, O32, O43, O44), and the invariant (O46, O38). -/

namespace Sys2Proof.Machine

/-! ### Whose turn it is (10_state R25; log 1) -/

section

variable {c : Config} {run : Instr → State → Host.Outcome State Fault Refusal} {s : State} {rest : List HostLine}

theorem turn_of_nil (h : s.hostTodo = []) : turn c run s = engineTurn run s := by
  rw [turn, h]

theorem turn_of_pass (h : s.hostTodo = .pass :: rest) :
    turn c run s = engineTurn run { s with hostTodo := rest } := by
  rw [turn, h]

theorem turn_of_wait (h : s.hostTodo = .wait :: rest) :
    turn c run s = if s.busy then engineTurn run s else .next { s with hostTodo := rest } := by
  rw [turn, h]

theorem engineTurn_of_decode {i : Instr} (hb : s.busy = true) (hd : decode s.cmdL = .ok i) :
    engineTurn run s = run i s := by
  rw [engineTurn, if_pos hb, hd]

theorem engineTurn_of_not_busy (hb : s.busy = false) : engineTurn run s = .next s := by
  rw [engineTurn, hb, if_neg Bool.false_ne_true]

end

/-- 10_state R20: `BUSY` is 0 in exactly these three states. -/
theorem State.busy_eq_false_iff (s : State) : s.busy = false ↔ s.seq = .idle ∨ s.seq = .done ∨ s.seq = .fail := by
  rw [State.busy]
  cases s.seq <;> decide

/-- 30_encoding R58, R59: the word of an operation names it. -/
theorem decode_encode (i : Instr) : decode (encode i) = .ok i := by
  cases i with
  | block e n => revert e n; decide
  | bgzf e n => revert e n; decide
  | gzip e n => revert e n; decide

/-! ### Where an operation has a rule (10_state R24; log 3) -/

/-- The sequencer states in which a command of this operation has a step. -/
def operationStates : Instr → List SeqState
  | .block _ _ => [.validate, .block]
  | .bgzf _ _ => [.validate, .chunk, .eof]
  | .gzip _ _ => [.validate, .gzip]

theorem stepBlock_ne_fault (c : Config) (s : State) (r : Fault) : stepBlock c s ≠ .fault r := by
  intro h
  obtain ⟨-, h'⟩ | ⟨_, -, ⟨-, _, h', -⟩ | ⟨_, -, _, h', -⟩⟩ := stepBlock_cases c s <;> rw [h'] at h <;> cases h

theorem stepChunk_ne_fault (c : Config) (s : State) (r : Fault) : stepChunk c s ≠ .fault r := by
  intro h
  obtain ⟨-, h'⟩ | ⟨-, ⟨-, h'⟩ | ⟨-, ⟨-, h'⟩ | ⟨_, -, ⟨-, _, h', -⟩ | ⟨_, -, _, h', -⟩⟩⟩⟩ := stepChunk_cases c s <;>
    rw [h'] at h <;> cases h

theorem stepEof_ne_fault (c : Config) (e : Bool) (s : State) (r : Fault) : stepEof c e s ≠ .fault r := by
  intro h
  obtain ⟨-, h'⟩ | ⟨-, ⟨-, h'⟩ | ⟨-, h'⟩⟩ := stepEof_cases c e s <;> rw [h'] at h <;> cases h

theorem stepGzip_ne_fault (c : Config) (s : State) (r : Fault) : stepGzip c s ≠ .fault r := by
  intro h
  obtain ⟨-, h'⟩ | ⟨-, ⟨-, h'⟩ | ⟨_, -, ⟨-, h'⟩ | ⟨_, -, h'⟩⟩⟩ := stepGzip_cases c s <;> rw [h'] at h <;> cases h

theorem execWith_fault_iff (c : Config) (i : Instr) (s : State) (r : Fault) :
    execWith c i s = .fault r ↔ s.seq ∉ operationStates i := by
  cases r
  cases i with
  | block e n =>
    simp only [execWith, execBlockWith, operationStates]
    cases s.seq <;> simp [stepBlock_ne_fault]
  | bgzf e n =>
    simp only [execWith, execBgzfWith, operationStates]
    cases s.seq <;> simp [stepChunk_ne_fault, stepEof_ne_fault]
  | gzip e n =>
    simp only [execWith, execGzipWith, operationStates]
    cases s.seq <;> simp [stepGzip_ne_fault]

theorem rejectReserved_fault_iff (s : State) (r : Fault) : rejectReserved s = .fault r ↔ s.seq ≠ .validate := by
  cases r
  rw [rejectReserved]
  cases s.seq <;> simp

/-! ### What a step of an operation leaves alone -/

/-- The host's registers, the latches, `IN` and the model's host fields are the same: what no operation writes
(10_state R23, 20_memory R43, R47). -/
def State.SameOperands (s t : State) : Prop :=
  t.level = s.level ∧ t.inLen = s.inLen ∧ t.cap = s.cap ∧ t.cmdL = s.cmdL ∧ t.lvlL = s.lvlL ∧ t.nL = s.nL ∧
    t.capL = s.capL ∧ t.input = s.input ∧ t.hostTodo = s.hostTodo ∧ t.hostSaw = s.hostSaw

theorem Effect.sameOperands {c : Config} {i : Instr} {s u : State} (h : Effect c i s u) : s.SameOperands u := by
  cases h <;> exact ⟨rfl, rfl, rfl, rfl, rfl, rfl, rfl, rfl, rfl, rfl⟩

/-- 60_exceptions R118: only a step into `S_FAIL` writes the record. -/
theorem Effect.record {c : Config} {i : Instr} {s u : State} (h : Effect c i s u) (hu : u.seq ≠ .fail) :
    u.err = s.err ∧ u.stage = s.stage ∧ u.errOffset = s.errOffset := by
  cases h with
  | invalid | blockFails | chunkDenied | chunkFails | markerDenied | gzipDenied | gzipFails => exact absurd rfl hu
  | toBlock | toChunk | toGzip | toEof | blockDone | chunkAppended | noMarker | markerAppended | gzipDone =>
    exact ⟨rfl, rfl, rfl⟩

/-- 44_host_commands R105: a validation that passes touches no output. -/
theorem Effect.output_of_validate {c : Config} {i : Instr} {s u : State} (h : Effect c i s u)
    (hs : s.seq = .validate) (hu : u.seq ≠ .fail) : u.outCap = s.outCap ∧ u.outLen = s.outLen ∧ u.out = s.out := by
  cases h with
  | invalid => exact absurd rfl hu
  | toBlock | toChunk | toGzip => exact ⟨rfl, rfl, rfl⟩
  | _ => simp_all only [reduceCtorEq] -- the other effects start in another sequencer state

/-- 43_gzip_encoder R96: `GZIP` does not use the block datapath. -/
theorem Effect.temporaries_of_gzip {c : Config} {e n : Bool} {s u : State} (h : Effect c (.gzip e n) s u) :
    u.isizeR = s.isizeR ∧ u.plen = s.plen ∧ u.blen = s.blen ∧ u.crcAcc = s.crcAcc := by
  cases h <;> exact ⟨rfl, rfl, rfl, rfl⟩

theorem execWith_sameOperands {c : Config} {i : Instr} {s t : State} (h : execWith c i s = .next t) :
    s.SameOperands t := by
  obtain ⟨u, hu, he⟩ := execWith_effect h
  obtain ⟨hlevel, hinLen, hcap, -, -, hcmdL, hlvlL, hnL, hcapL, -, -, -, -, -, hinput, -, htodo, hsaw, -⟩ :=
    State.fields_of_forgetTemporaries hu
  rw [State.SameOperands, hlevel, hinLen, hcap, hcmdL, hlvlL, hnL, hcapL, hinput, htodo, hsaw]
  exact he.sameOperands

/-! ### What a step of the machine can do -/

/-- Everything a step of the machine can do under a configuration: an operation's step, the rejection of a reserved
word, or what the host's line does. The host's list is left free where no rule depends on it. -/
inductive Move (c : Config) (s : State) : State → Prop where
  /-- The engine runs the operation the latched word names (10_state R25). -/
  | runs {i : Instr} {t : State} (todo : List HostLine) (hb : s.busy = true) (hd : decode s.cmdL = .ok i)
      (h : execWith c i { s with hostTodo := todo } = .next t) : Move c s t
  /-- Validation fails on a reserved word (30_encoding R60). -/
  | rejects (todo : List HostLine) (e : DecodeError) (hs : s.seq = .validate) (hd : decode s.cmdL = .error e) :
      Move c s (({ s with hostTodo := todo } : State).failedAt .invalidArgument 1#3 0)
  /-- The engine waits, or the host reads or writes without effect: only the model's own fields change (log 1, 15). -/
  | notes (todo : List HostLine) (saw : List Seen) (draws : Nat) :
      Move c s { s with hostTodo := todo, hostSaw := saw, draws := draws }
  /-- The host fills `IN` (44_host_commands R109). -/
  | supplies (rest : List HostLine) (bytes : List Byte) (hq : s.hostTodo = .input bytes :: rest)
      (hb : s.busy = false) :
      Move c s { s with hostTodo := rest, input := Memory.ofBytes 0 bytes }
  /-- The host writes operand registers (44_host_commands R101). -/
  | operands (todo : List HostLine) (level : Word) (n cap : Nat) (hn : n = s.inLen ∨ n < 2 ^ c.lenBits)
      (hc : cap = s.cap ∨ cap < 2 ^ c.lenBits) :
      Move c s { s with hostTodo := todo, level := level, inLen := n, cap := cap }
  /-- START (44_host_commands R103). -/
  | starts (rest : List HostLine) (w : Nat) (hq : s.hostTodo = .write 0 w :: rest) (hb : s.busy = false)
      (hi : s.inputSupplied (BitVec.ofNat 32 w) = true) :
      Move c s (({ s with hostTodo := rest } : State).start (BitVec.ofNat 32 w))
  /-- The reset input (70_reset_and_hazards R131). -/
  | resets (rest : List HostLine) (hq : s.hostTodo = .reset :: rest) :
      Move c s ({ s with hostTodo := rest } : State).hardwareReset

theorem rejectReserved_eq_next {s t : State} (h : rejectReserved s = .next t) :
    s.seq = .validate ∧ t = s.failedAt .invalidArgument 1#3 0 := by
  have hs : s.seq = .validate := by
    by_contra hs
    rw [(rejectReserved_fault_iff s .noRuleInState).mpr hs] at h
    cases h
  rw [rejectReserved, hs, State.failWith_validate hs] at h
  cases h
  exact ⟨hs, rfl⟩

/-- The engine's turn is a move of the state before it, whatever line the host spent on letting the turn pass. -/
theorem engineTurn_move {c : Config} {s t : State} (todo : List HostLine)
    (h : engineTurn (execWith c) { s with hostTodo := todo } = .next t) : Move c s t := by
  obtain ⟨-, h'⟩ | ⟨hb, ⟨i, hd, h'⟩ | ⟨e, hd, h'⟩⟩ := engineTurn_cases (execWith c) { s with hostTodo := todo } <;>
    rw [h'] at h
  · cases h
    exact .notes todo s.hostSaw s.draws
  · exact .runs todo hb hd h
  · obtain ⟨hs, rfl⟩ := rejectReserved_eq_next h
    exact .rejects todo e hs hd

/-- A register write is a move of the state before its line was taken. -/
theorem hostWrite_move {c : Config} {s t : State} {rest : List HostLine} {index value : Nat}
    (hq : s.hostTodo = .write index value :: rest)
    (h : hostWrite c index value { s with hostTodo := rest } = .next t) : Move c s t := by
  obtain ⟨-, -, -, rfl⟩ | ⟨rfl, -, hb, hi, rfl⟩ | ⟨-, -, rfl⟩ | ⟨-, hv, rfl⟩ | ⟨-, hv, rfl⟩ | ⟨-, rfl⟩ :=
    hostWrite_cases h
  · exact .notes rest s.hostSaw s.draws
  · exact .starts rest value hq hb hi
  · exact .operands rest _ s.inLen s.cap (.inl rfl) (.inl rfl)
  · exact .operands rest s.level value s.cap (.inr hv) (.inl rfl)
  · exact .operands rest s.level s.inLen value (.inl rfl) (.inr hv)
  · exact .notes rest s.hostSaw s.draws

/-- 44_host_commands R110: taking a result changes nothing but the model's record of it. -/
theorem hostTakeResult_eq (c : Config) (s : State) :
    ∃ saw draws, hostTakeResult c s = { s with hostSaw := saw, draws := draws } := by
  unfold hostTakeResult
  split <;> exact ⟨_, _, rfl⟩

theorem stepWith_move {c : Config} {s t : State} (h : stepWith c s = .next t) : Move c s t := by
  obtain h | ⟨line, rest, hq, ⟨-, h⟩ | ⟨-, -, rfl⟩ | ⟨bytes, rfl, hb, rfl⟩ | ⟨index, value, rfl, h⟩ | ⟨index, -, rfl⟩ |
    ⟨offset, count, -, rfl⟩ | ⟨-, rfl⟩ | ⟨rfl, rfl⟩⟩ := turn_cases h
  · exact engineTurn_move s.hostTodo h
  · exact engineTurn_move rest h
  · exact .notes rest s.hostSaw s.draws
  · exact .supplies rest bytes hq hb
  · exact hostWrite_move hq h
  · exact .notes rest _ _
  · exact .notes rest _ _
  · obtain ⟨saw, draws, h⟩ := hostTakeResult_eq c { s with hostTodo := rest }
    rw [h]
    exact .notes rest saw draws
  · exact .resets rest hq

theorem step_move {s t : State} (h : step s = .next t) : Move Config.hw s t :=
  stepWith_move (step_eq_stepWith s ▸ h)

/-! ### What a step of the machine leaves alone -/

/-- 10_state R23, 44_host_commands R104. -/
theorem Move.latches {c : Config} {s t : State} (h : Move c s t) :
    (t.cmdL = s.cmdL ∧ t.lvlL = s.lvlL ∧ t.nL = s.nL ∧ t.capL = s.capL) ∨
      (∃ w rest, s.hostTodo = .write 0 w :: rest ∧ s.busy = false ∧ t.cmdL = BitVec.ofNat 32 w ∧ t.lvlL = s.level ∧
        t.nL = s.inLen ∧ t.capL = s.cap) ∨
      (∃ rest, s.hostTodo = .reset :: rest) := by
  cases h with
  | runs todo hb hd h =>
    obtain ⟨-, -, -, hcmdL, hlvlL, hnL, hcapL, -⟩ := execWith_sameOperands h
    exact .inl ⟨hcmdL, hlvlL, hnL, hcapL⟩
  | starts rest w hq hb hi => exact .inr (.inl ⟨w, rest, hq, hb, rfl, rfl, rfl, rfl⟩)
  | resets rest hq => exact .inr (.inr ⟨rest, hq⟩)
  | rejects | notes | supplies | operands => exact .inl ⟨rfl, rfl, rfl, rfl⟩

/-- 60_exceptions R120, 70_reset_and_hazards R136: when no command runs, the sequencer, the output and the record stay
until START or reset. -/
theorem Move.result_of_not_busy {c : Config} {s t : State} (h : Move c s t) (hb : s.busy = false) :
    (t.seq = s.seq ∧ t.outLen = s.outLen ∧ t.out = s.out ∧ t.err = s.err ∧ t.stage = s.stage ∧
        t.errOffset = s.errOffset ∧ t.status = s.status) ∨
      (t.seq = .validate ∧ ∃ w rest, s.hostTodo = .write 0 w :: rest) ∨
      (t.seq = .idle ∧ ∃ rest, s.hostTodo = .reset :: rest) := by
  cases h with
  | runs todo hb' => exact absurd (hb.symm.trans hb') Bool.false_ne_true
  | rejects todo e hs => rw [State.busy, hs] at hb; cases hb
  | starts rest w hq => exact .inr (.inl ⟨rfl, w, rest, hq⟩)
  | resets rest hq => exact .inr (.inr ⟨rfl, rest, hq⟩)
  | notes | supplies | operands => exact .inl ⟨rfl, rfl, rfl, rfl, rfl, rfl, rfl⟩

/-! ### The invariant: what it does not speak of -/

/-- What the invariant speaks of: the state without the temporaries, `LEVEL` and the model's own fields. -/
def State.invariantView (s : State) : State :=
  { s.commandView with level := 0#32, hostTodo := [], draws := 0 }

theorem State.invariantView_eq_of_forgetTemporaries {s t : State} (h : t.forgetTemporaries = s.forgetTemporaries) :
    t.invariantView = s.invariantView := by
  rw [State.invariantView, State.commandView, h]
  rfl

theorem State.Inv.invariantView {c : Config} {s : State} (h : s.Inv c) : s.invariantView.Inv c :=
  { h with widths := { h.widths with } }

theorem State.Inv.congr {c : Config} {s t : State} (h : s.Inv c) (hv : t.invariantView = s.invariantView) : t.Inv c :=
  have ht : t.invariantView.Inv c := hv ▸ h.invariantView
  { ht with widths := { ht.widths with } }

/-! ### The invariant: what the host's actions keep -/

section

variable {c : Config} {s : State}

theorem State.Inv.setOperands (h : s.Inv c) (level : Word) {n cap : Nat} (hn : n < 2 ^ c.lenBits)
    (hc : cap < 2 ^ c.lenBits) : ({ s with level := level, inLen := n, cap := cap } : State).Inv c :=
  { h with widths := { h.widths with inLen := hn, cap := hc } }

/-- Only a running command needs its input to stay. -/
theorem State.Inv.setInput (h : s.Inv c) (hb : s.busy = false) (bytes : List Byte) :
    ({ s with input := Memory.ofBytes 0 bytes } : State).Inv c :=
  { h with
    widths := { h.widths with }
    inputWf := Memory.wf_ofBytes bytes 0
    supplied := fun hb' => absurd (hb.symm.trans hb') Bool.false_ne_true }

theorem State.Inv.start (h : s.Inv c) {w : Word} (hi : s.inputSupplied w = true) : (s.start w).Inv c where
  widths :=
    { h.widths with
      nL := h.widths.inLen, capL := h.widths.cap
      off := Nat.two_pow_pos _, outLen := Nat.two_pow_pos _, outCap := Nat.two_pow_pos _
      errOffset := Nat.two_pow_pos _ }
  inputWf := h.inputWf
  supplied := fun _ hnull => by
    have hnull : nullField w = false := hnull
    simpa [State.inputSupplied_eq, hnull] using hi
  outWf := Memory.wf_nil
  offLe := Nat.zero_le _
  outLenLe := Nat.le_refl _
  outListed := by simp
  noRecord := by simp
  record := nofun
  recordOffset := .inl rfl
  fresh := by simp
  inBlock := nofun
  inBgzf := by simp
  inGzip := nofun
  chunkStart := nofun
  allConsumed := nofun

/-- The reset input meets the invariant from any state whose `IN` is in canonical form. -/
theorem State.inv_hardwareReset (c : Config) (hi : s.input.wf) : s.hardwareReset.Inv c where
  widths := by
    have := c.two_pow_17_le
    constructor <;> simp only [State.hardwareReset, State.reset] <;> omega
  inputWf := hi
  supplied := nofun
  outWf := Memory.wf_nil
  offLe := Nat.le_refl _
  outLenLe := Nat.le_refl _
  outListed := by simp
  noRecord := by simp
  record := nofun
  recordOffset := .inl rfl
  fresh := by simp
  inBlock := nofun
  inBgzf := by simp
  inGzip := nofun
  chunkStart := nofun
  allConsumed := nofun

/-! ### The invariant: what the engine's steps keep

An effect of an operation is made of these: enter a sequencer state, append, advance, fail. -/

/-- A failure at the offset in hand, or at 0, leaves a legal record (60_exceptions R112 to R118). -/
theorem State.Inv.failedAt (h : s.Inv c) {e : ErrClass} {k : BitVec 3} {o : Nat} (hrec : (e, k) ∈ failureRecords)
    (ho : o ≤ s.off) (hstart : o % chunkMax = 0 ∨ o = s.nL) : (s.failedAt e k o).Inv c where
  widths :=
    { h.widths with
      outLen := Nat.two_pow_pos _, outCap := Nat.two_pow_pos _
      errOffset := Nat.lt_of_le_of_lt ho h.widths.off }
  inputWf := h.inputWf
  supplied := nofun
  outWf := h.outWf
  offLe := h.offLe
  outLenLe := Nat.le_refl _
  outListed := fun hs => absurd rfl hs
  noRecord := fun hs => absurd rfl hs
  record := fun _ => ⟨rfl, rfl, hrec⟩
  recordOffset := hstart
  fresh := by simp
  inBlock := nofun
  inBgzf := by simp
  inGzip := nofun
  chunkStart := nofun
  allConsumed := nofun

/-- A failure at offset 0, where no chunk is in hand. -/
theorem State.Inv.failedAt_zero (h : s.Inv c) {e : ErrClass} {k : BitVec 3} (hrec : (e, k) ∈ failureRecords) :
    (s.failedAt e k 0).Inv c :=
  h.failedAt hrec (Nat.zero_le _) (.inl rfl)

/-- What the invariant asks of a state that stands in the sequencer state `q`, beyond what it asks of every state. -/
def State.Admits (s : State) : SeqState → Prop
  | .idle => True
  | .validate => s.off = 0 ∧ s.outLen = 0
  | .chunk =>
    (∃ eof, decode s.cmdL = .ok (.bgzf eof false)) ∧ levelLegal s.levelL = true ∧
      (s.off % chunkMax = 0 ∨ s.off = s.nL)
  | .eof => (∃ eof, decode s.cmdL = .ok (.bgzf eof false)) ∧ levelLegal s.levelL = true ∧ s.off = s.nL
  | .block =>
    (s.off = 0 ∧ s.outLen = 0) ∧ (∃ eof, decode s.cmdL = .ok (.block eof false)) ∧ s.nL ≤ chunkMax ∧
      s.capL ≤ blockMax
  | .gzip =>
    (s.off = 0 ∧ s.outLen = 0) ∧ (∃ eof, decode s.cmdL = .ok (.gzip eof false)) ∧ levelLegal s.levelL = true
  | .done => True
  | .fail => False

/-- A running command may move on to any sequencer state that admits it. -/
theorem State.Inv.enter (h : s.Inv c) (hb : s.busy = true) {q : SeqState} (hq : s.Admits q) :
    ({ s with seq := q } : State).Inv c :=
  have hs : s.seq ≠ .fail := fun hs => by rw [State.busy, hs] at hb; cases hb
  { h with
    widths := { h.widths with }
    supplied := fun _ => h.supplied hb
    outListed := fun _ => h.outListed hs
    noRecord := fun _ => h.noRecord hs
    record := fun (e : q = .fail) => by subst e; exact hq.elim
    fresh := fun (e : q = .validate ∨ q = .block ∨ q = .gzip) => by
      obtain rfl | rfl | rfl := e
      exacts [hq, hq.1, hq.1]
    inBlock := fun (e : q = .block) => by subst e; exact hq.2
    inBgzf := fun (e : q = .chunk ∨ q = .eof) => by
      obtain rfl | rfl := e <;> exact ⟨hq.1, hq.2.1⟩
    inGzip := fun (e : q = .gzip) => by subst e; exact hq.2
    chunkStart := fun (e : q = .chunk) => by subst e; exact hq.2.2
    allConsumed := fun (e : q = .eof) => by subst e; exact hq.2.2 }

/-- A store at the end of the listed bytes leaves exactly the bytes below the new end listed (20_memory R34). -/
theorem Memory.isSome_read_write {m : Memory} {n : Nat} (hm : ∀ a, (m.read a).isSome = true ↔ a < n) (bs : List Byte)
    (a : Nat) : ((m.write n bs).read a).isSome = true ↔ a < n + bs.length := by
  rw [Memory.read_write]
  split
  · rename_i hin
    have : a - n < bs.length := by omega
    simp [this, hin.2]
  · rw [hm]
    omega

/-- Appending within a capacity that fits its register (10_state R28, R31). -/
theorem State.Inv.append (h : s.Inv c) (hs : s.seq = .chunk ∨ s.seq = .done) {bs : List Byte} {cap : Nat}
    (hcap : cap < 2 ^ c.lenBits) (hbs : s.outLen + bs.length ≤ cap) :
    ({ s with outCap := cap, out := s.out.write s.outLen bs, outLen := s.outLen + bs.length } : State).Inv c :=
  have hfail : s.seq ≠ .fail := by obtain hs | hs := hs <;> simp [hs]
  { h with
    widths := { h.widths with outLen := Nat.lt_of_le_of_lt hbs hcap, outCap := hcap }
    outWf := Memory.wf_write _ _ _ h.outWf
    outLenLe := hbs
    outListed := fun _ => Memory.isSome_read_write (h.outListed hfail) bs
    record := fun hf => absurd hf hfail
    fresh := fun (hf : s.seq = .validate ∨ s.seq = .block ∨ s.seq = .gzip) => by
      obtain hs | hs := hs <;> simp [hs] at hf }

/-- The chunk in hand is a full one or the last (42_bgzf_encoder R83). -/
theorem State.Inv.advance (h : s.Inv c) (hs : s.seq = .chunk) :
    ({ s with off := s.off + s.chunkSize } : State).Inv c :=
  have hle : s.off + s.chunkSize ≤ s.nL := by
    have := h.offLe
    rw [State.chunkSize_eq]
    omega
  have hstart : (s.off + s.chunkSize) % chunkMax = 0 ∨ s.off + s.chunkSize = s.nL := by
    have hoff : s.off % 65280 = 0 ∨ s.off = s.nL := h.chunkStart hs
    rw [State.chunkSize_eq, chunkMax]
    omega
  { h with
    widths := { h.widths with off := Nat.lt_of_le_of_lt hle h.widths.nL }
    offLe := hle
    fresh := fun (hf : s.seq = .validate ∨ s.seq = .block ∨ s.seq = .gzip) => by simp [hs] at hf
    chunkStart := fun _ => hstart
    allConsumed := fun (hf : s.seq = .eof) => by simp [hs] at hf }

end

theorem Effect.busy {c : Config} {i : Instr} {s u : State} (h : Effect c i s u) : s.busy = true := by
  cases h <;> simp only [State.busy, *] <;> rfl

/-- Every effect of the operation that the latched word names keeps the invariant. -/
theorem Effect.inv {c : Config} {i : Instr} {s u : State} (he : Effect c i s u) (hd : decode s.cmdL = .ok i)
    (h : s.Inv c) : u.Inv c := by
  have hb : s.busy = true := he.busy
  cases he with
  | invalid i s hs => exact h.failedAt_zero (by decide)
  | toBlock e s hs hn hc => exact h.enter hb ⟨h.fresh (.inl hs), ⟨e, hd⟩, hn, hc⟩
  | toChunk e s hs hl => exact h.enter hb ⟨⟨e, hd⟩, hl, .inl (by rw [(h.fresh (.inl hs)).1, Nat.zero_mod])⟩
  | toGzip e s hs hl => exact h.enter hb ⟨h.fresh (.inl hs), ⟨e, hd⟩, hl⟩
  | blockFails e n s ch hs hi hbl => exact h.failedAt_zero (by decide)
  | blockDone e n s ch b hs hi hbl =>
    have hfit := (compressBlock_length hbl).2
    have hempty := (h.fresh (.inr (.inl hs))).2
    exact (h.enter hb (q := .done) trivial).append (.inr rfl) h.widths.capL (by rw [hempty]; omega)
  | toEof e n s hs h0 =>
    have := h.offLe
    obtain ⟨hword, hl⟩ := h.inBgzf (.inl hs)
    exact h.enter hb ⟨hword, hl, by omega⟩
  | chunkDenied e n s hs h0 hg => exact (h.failedAt (by decide) (Nat.le_refl _) (h.chunkStart hs)).congr rfl
  | chunkFails e n s ch hs h0 hg hi hbl => exact (h.failedAt (by decide) (Nat.le_refl _) (h.chunkStart hs)).congr rfl
  | chunkAppended e n s ch b hs h0 hg hi hbl =>
    have hfit := (compressBlock_length hbl).2
    have happ := (h.advance hs).append (.inl hs) (Config.lt_of_grants hg) (Nat.add_le_add_left hfit _)
    exact happ.congr (by rw [← hs]; rfl)
  | noMarker n s hs => exact h.enter hb trivial
  | markerDenied n s hs hg =>
    exact (h.failedAt (by decide) (Nat.le_refl _) (.inr (h.allConsumed hs))).congr rfl
  | markerAppended n s hs hg =>
    exact ((h.enter hb (q := .done) trivial).append (bs := eofMarker) (.inr rfl) (Config.lt_of_grants hg)
      (Nat.le_refl _)).congr rfl
  | gzipDenied e n s hs hg => exact (h.failedAt_zero (by decide)).congr rfl
  | gzipFails e n s i hs hg hi hz => exact (h.failedAt_zero (by decide)).congr rfl
  | gzipDone e n s i g hs hg hi hz =>
    have hfit := (Config.gzipStream_contract hz).2
    have hempty := (h.fresh (.inr (.inr hs))).2
    exact ((h.enter hb (q := .done) trivial).append (.inr rfl) (Config.lt_of_grants hg)
      (by rw [hempty]; omega)).congr rfl

/-- Every move of the machine keeps the invariant, under every configuration. -/
theorem Move.inv {c : Config} {s t : State} (hm : Move c s t) (h : s.Inv c) : t.Inv c := by
  cases hm with
  | runs todo hb hd hx =>
    obtain ⟨u, hu, he⟩ := execWith_effect hx
    have hInv : u.Inv c := he.inv hd (h.congr rfl)
    exact hInv.congr (State.invariantView_eq_of_forgetTemporaries hu)
  | rejects todo e hs hd => exact (h.failedAt_zero (by decide)).congr rfl
  | notes todo saw draws => exact h.congr rfl
  | supplies rest bytes hq hb => exact (h.setInput hb bytes).congr rfl
  | operands todo level n cap hn hc =>
    have hn : n < 2 ^ c.lenBits := hn.elim (fun e => e ▸ h.widths.inLen) id
    have hc : cap < 2 ^ c.lenBits := hc.elim (fun e => e ▸ h.widths.cap) id
    exact (h.setOperands level hn hc).congr rfl
  | starts rest w hq hb hi => exact (h.start hi).congr rfl
  | resets rest hq => exact State.inv_hardwareReset c h.inputWf

/-! ### Under the invariant no step faults (log 3) -/

section

variable {c : Config} {s : State}

/-- A running command past validation is of an operation that has a step where it stands. -/
theorem State.Inv.validate_or_decodes (h : s.Inv c) (hb : s.busy = true) :
    s.seq = .validate ∨ ∃ i, decode s.cmdL = .ok i ∧ s.seq ∈ operationStates i := by
  cases hs : s.seq with
  | validate => exact .inl rfl
  | block =>
    obtain ⟨⟨e, hd⟩, -⟩ := h.inBlock hs
    exact .inr ⟨_, hd, by simp [operationStates]⟩
  | chunk =>
    obtain ⟨⟨e, hd⟩, -⟩ := h.inBgzf (.inl hs)
    exact .inr ⟨_, hd, by simp [operationStates]⟩
  | eof =>
    obtain ⟨⟨e, hd⟩, -⟩ := h.inBgzf (.inr hs)
    exact .inr ⟨_, hd, by simp [operationStates]⟩
  | gzip =>
    obtain ⟨⟨e, hd⟩, -⟩ := h.inGzip hs
    exact .inr ⟨_, hd, by simp [operationStates]⟩
  | idle | done | fail => rw [State.busy, hs] at hb; cases hb

theorem validate_mem_operationStates (i : Instr) : .validate ∈ operationStates i := by
  cases i <;> exact List.mem_cons_self

theorem State.Inv.seq_mem_operationStates (h : s.Inv c) (hb : s.busy = true) {i : Instr}
    (hd : decode s.cmdL = .ok i) : s.seq ∈ operationStates i := by
  obtain hs | ⟨j, hd', hj⟩ := h.validate_or_decodes hb
  · exact hs ▸ validate_mem_operationStates i
  · cases hd'.symm.trans hd
    exact hj

/-- A reserved word gets no further than validation (30_encoding R60). -/
theorem State.Inv.seq_eq_validate_of_reserved (h : s.Inv c) (hb : s.busy = true) {e : DecodeError}
    (hd : decode s.cmdL = .error e) : s.seq = .validate := by
  obtain hs | ⟨j, hd', -⟩ := h.validate_or_decodes hb
  · exact hs
  · cases hd'.symm.trans hd

theorem State.Inv.engineTurn_ne_fault (h : s.Inv c) (r : Fault) : engineTurn (execWith c) s ≠ .fault r := by
  intro hf
  obtain ⟨-, h'⟩ | ⟨hb, ⟨i, hd, h'⟩ | ⟨e, hd, h'⟩⟩ := engineTurn_cases (execWith c) s <;> rw [h'] at hf
  · cases hf
  · exact (execWith_fault_iff c i s r).mp hf (h.seq_mem_operationStates hb hd)
  · exact (rejectReserved_fault_iff s r).mp hf (h.seq_eq_validate_of_reserved hb hd)

end

theorem hostInput_ne_fault (bytes : List Byte) (s : State) (r : Fault) : hostInput bytes s ≠ .fault r := by
  unfold hostInput
  split <;> nofun

theorem hostDoorbell_ne_fault (w : Word) (s : State) (r : Fault) : hostDoorbell w s ≠ .fault r := by
  obtain ⟨-, h⟩ | ⟨-, -, h⟩ | ⟨-, -, h⟩ := hostDoorbell_cases w s <;> rw [h] <;> nofun

theorem hostWrite_ne_fault (c : Config) (index value : Nat) (s : State) (r : Fault) :
    hostWrite c index value s ≠ .fault r := by
  unfold hostWrite
  split
  case h_1 => split <;> [exact hostDoorbell_ne_fault _ s r; nofun]
  case h_5 => nofun
  all_goals split <;> nofun

/-- A fault is the engine's: the host's actions raise none. -/
theorem turn_eq_fault {c : Config} {run : Instr → State → Host.Outcome State Fault Refusal} {s : State} {r : Fault}
    (h : turn c run s = .fault r) : ∃ todo, engineTurn run { s with hostTodo := todo } = .fault r := by
  unfold turn at h
  split at h
  case h_1 => exact ⟨s.hostTodo, h⟩
  case h_2 => split at h <;> [exact ⟨s.hostTodo, h⟩; cases h]
  case h_3 => exact ⟨_, h⟩
  case h_4 => exact absurd h (hostInput_ne_fault _ _ r)
  case h_5 => exact absurd h (hostWrite_ne_fault c _ _ _ r)
  all_goals cases h

theorem State.Inv.stepWith_ne_fault {c : Config} {s : State} (h : s.Inv c) (r : Fault) : stepWith c s ≠ .fault r := by
  intro hf
  obtain ⟨todo, hf⟩ := turn_eq_fault hf
  have htodo : ({ s with hostTodo := todo } : State).Inv c := h.congr rfl
  exact htodo.engineTurn_ne_fault r hf

/-! ### The status word under the invariant (10_state R20, R24; 60_exceptions R111) -/

/-- The status word as a function of the three stored fields it shows. -/
def statusWord (q : SeqState) (e : ErrClass) (k : BitVec 3) : Word :=
  0#21 ++ k ++ 0#2 ++ e.code ++ BitVec.ofBool q.busy ++ q.code

theorem State.status_eq_statusWord (s : State) : s.status = statusWord s.seq s.err s.stage := rfl

/-- The status words of a state that has not failed, one a sequencer state (95_test_vectors 2.9). -/
def liveStatusWords : List Word :=
  [0x00000000#32, 0x00000009#32, 0x0000000A#32, 0x0000000B#32, 0x0000000C#32, 0x0000000D#32, 0x00000006#32]

/-- The status words of `S_FAIL`, one a record (95_test_vectors 2.9). -/
def failedStatusWords : List Word :=
  [0x00000117#32, 0x00000227#32, 0x00000237#32, 0x00000337#32, 0x00000427#32, 0x00000527#32, 0x00000537#32]

theorem statusWord_not_failed_mem {q : SeqState} (hq : q ≠ .fail) :
    statusWord q .none 0#3 ∈ liveStatusWords := by
  revert hq
  cases q <;> decide

theorem statusWord_failed_mem : ∀ p ∈ failureRecords, statusWord .fail p.1 p.2 ∈ failedStatusWords := by
  decide

theorem State.Inv.status_mem {c : Config} {s : State} (h : s.Inv c) :
    s.status ∈ liveStatusWords ++ failedStatusWords := by
  rw [State.status_eq_statusWord, List.mem_append]
  by_cases hs : s.seq = .fail
  · obtain ⟨-, -, hrec⟩ := h.record hs
    rw [hs]
    exact .inr (statusWord_failed_mem (s.err, s.stage) hrec)
  · obtain ⟨herr, hstage, -⟩ := h.noRecord hs
    rw [herr, hstage]
    exact .inl (statusWord_not_failed_mem hs)

end Sys2Proof.Machine

namespace Sys2Proof.Proofs.StateRules

open Sys2Proof.Machine

/-- Settles O46: each move of the machine keeps the invariant, effect by effect. -/
theorem everyStepKeepsInvariant : Obligations.EveryStepKeepsInvariant := fun _ _ h hstep => (step_move hstep).inv h

/-- Settles O29: read off the effects of an operation. -/
theorem noOperationWritesOperandsOrInput : Obligations.NoOperationWritesOperandsOrInput :=
  fun i s _ h => execWith_sameOperands (exec_eq_execWith i s ▸ h)

/-- Settles O32: read off the effects; the temporaries need the step of `GZIP` itself, not one up to them. -/
theorem statusRecordChangesOnlyOnFailure : Obligations.StatusRecordChangesOnlyOnFailure := by
  intro i s t h
  obtain ⟨u, hu, he⟩ := exec_effect h
  obtain ⟨-, -, -, houtLen, herrOffset, -, -, -, -, hseq, herr, hstage, -, houtCap, -, hout, -, -, -⟩ :=
    State.fields_of_forgetTemporaries hu
  rw [hseq, herr, hstage, herrOffset, houtCap, houtLen, hout]
  refine ⟨he.record, ?_, he.output_of_validate⟩
  rintro ⟨e, n, rfl⟩
  exact (execGzipWith_effect (e := e) h).temporaries_of_gzip

/-- Settles O38: outside `S_FAIL` the record is clear, and in `S_FAIL` it is one of seven. -/
theorem statusTakesFourteenValues : Obligations.StatusTakesFourteenValues := fun _ h => h.status_mem

/-- Settles O43: the engine's own steps keep the latches, and of the host's actions START and reset write them. -/
theorem latchesChangeOnlyAtStartOrReset : Obligations.LatchesChangeOnlyAtStartOrReset :=
  fun _ _ h => (step_move h).latches

/-- Settles O44: in `S_DONE` and `S_FAIL` nothing runs, so only the host moves. -/
theorem finishedStatesAreLeftOnlyByStartOrReset : Obligations.FinishedStatesAreLeftOnlyByStartOrReset :=
  fun s _ hs h => (step_move h).result_of_not_busy (s.busy_eq_false_iff.mpr (.inr hs))

/-- Settles O47: the host raises no fault, and under the invariant a running command stands where it has a rule. -/
theorem noStepFaultsUnderInvariant : Obligations.NoStepFaultsUnderInvariant :=
  fun s r h => step_eq_stepWith s ▸ h.stepWith_ne_fault r

/-- Settles O7: `withFetchWord` is a START, so its state is busy with the word it latched. -/
theorem stepRunsDecodedOperation : Obligations.StepRunsDecodedOperation := by
  refine ⟨fun s i hq hb hd => ?_, fun s i rest hq hb hd => ?_, fun s i rest hq hb hd => ?_, fun s i => ?_⟩
  · exact (turn_of_nil hq).trans (engineTurn_of_decode hb hd)
  · exact (turn_of_pass hq).trans (engineTurn_of_decode hb hd)
  · rw [step, turn_of_wait hq, if_pos hb, engineTurn_of_decode hb hd]
  · have hd : decode (s.withFetchWord 32 (encode i).toNat).cmdL = .ok i := by
      show decode (BitVec.ofNat 32 (encode i).toNat) = .ok i
      rw [BitVec.ofNat_toNat, BitVec.setWidth_eq, decode_encode]
    exact (turn_of_nil rfl).trans (engineTurn_of_decode rfl hd)

/-- Settles O8: these are the states with `BUSY` = 0. -/
theorem engineWaitsWhenNotBusy : Obligations.EngineWaitsWhenNotBusy := by
  intro s hs
  have hb : s.busy = false := s.busy_eq_false_iff.mpr hs
  refine ⟨fun hq => (turn_of_nil hq).trans (engineTurn_of_not_busy hb), fun rest hq => ?_⟩
  obtain hq | hq := hq
  · rw [step, turn_of_wait hq, hb, if_neg Bool.false_ne_true]
  · exact (turn_of_pass hq).trans (engineTurn_of_not_busy hb)

/-- Settles O27: `execWith_fault_iff`, with the list of states written out. -/
theorem operationFaultsExactlyOutsideItsStates : Obligations.OperationFaultsExactlyOutsideItsStates := by
  intro e n s r
  simp only [exec_eq_execWith, execWith_fault_iff, operationStates, List.mem_cons, List.not_mem_nil, or_false, not_or,
    ne_eq, and_self]

end Sys2Proof.Proofs.StateRules

/-! The memory statement (20_memory): a step of an operation only appends to `OUT` (O30). -/

namespace Sys2Proof.Machine

/-- Everything a step of an operation can do to `OUT`, `OUT_LEN` and the capacity (20_memory R34; 10_state R28, R31). -/
inductive OutputEffect (s t : State) : Prop where
  /-- The output is withdrawn, its bytes are not erased (60_exceptions R118). -/
  | withdraws (hseq : t.seq = .fail) (hout : t.out = s.out) (hlen : t.outLen = 0)
  /-- Nothing is stored. -/
  | keeps (hout : t.out = s.out) (hlen : t.outLen = s.outLen)
  /-- `append(bs)`. The capacity that `BLOCK` and `GZIP` reserve counts from offset 0, so there the bytes fit where
  nothing was appended before. -/
  | appends (bs : List Byte) (hout : t.out = s.out.write s.outLen bs) (hlen : t.outLen = s.outLen + bs.length)
      (hfit : s.outLen = 0 ∨ s.seq = .chunk ∨ s.seq = .eof → t.outLen ≤ t.outCap)

theorem Effect.outputEffect {c : Config} {i : Instr} {s u : State} (h : Effect c i s u) : OutputEffect s u := by
  cases h with
  | invalid | blockFails | chunkDenied | chunkFails | markerDenied | gzipDenied | gzipFails =>
    exact .withdraws rfl rfl rfl
  | toBlock | toChunk | toGzip | toEof | noMarker => exact .keeps rfl rfl
  | blockDone e n s ch b hs hi hb =>
    refine .appends b rfl rfl fun hroom => ?_
    have hempty : s.outLen = 0 := by simpa [hs] using hroom
    have hlen : b.length ≤ s.capL := (compressBlock_length hb).2
    show s.outLen + b.length ≤ s.capL
    omega
  | chunkAppended e n s ch b hs h0 hg hi hb =>
    exact .appends b rfl rfl fun _ => Nat.add_le_add_left (compressBlock_length hb).2 s.outLen
  | markerAppended n s hs hg => exact .appends eofMarker rfl rfl fun _ => Nat.le_refl _
  | gzipDone e n s i g hs hg hi hz =>
    refine .appends g rfl rfl fun hroom => ?_
    have hempty : s.outLen = 0 := by simpa [hs] using hroom
    have hlen : g.length ≤ s.nL + 26 := (Config.gzipStream_contract hz).2
    show s.outLen + g.length ≤ s.nL + 26
    omega

/-- The datapath temporaries have no part in the output. -/
theorem OutputEffect.of_forgetTemporaries {s t u : State} (hu : t.forgetTemporaries = u.forgetTemporaries)
    (h : OutputEffect s u) : OutputEffect s t := by
  obtain ⟨-, -, -, houtLen, -, -, -, -, -, hseq, -, -, -, houtCap, -, hout, -, -, -⟩ :=
    State.fields_of_forgetTemporaries hu
  cases h with
  | withdraws hs ho hl => exact .withdraws (hseq.trans hs) (hout.trans ho) (houtLen.trans hl)
  | keeps ho hl => exact .keeps (hout.trans ho) (houtLen.trans hl)
  | appends bs ho hl hfit =>
    exact .appends bs (hout.trans ho) (houtLen.trans hl) fun hroom => by rw [houtLen, houtCap]; exact hfit hroom

theorem execWith_outputEffect {c : Config} {i : Instr} {s t : State} (h : execWith c i s = .next t) :
    OutputEffect s t := by
  obtain ⟨u, hu, he⟩ := execWith_effect h
  exact he.outputEffect.of_forgetTemporaries hu

section

variable {s t : State} (h : OutputEffect s t)

include h

theorem OutputEffect.read_outside (a : Nat) (ha : ¬(s.outLen ≤ a ∧ a < t.outLen)) : t.out.read a = s.out.read a := by
  cases h with
  | withdraws _ hout _ | keeps hout _ => rw [hout]
  | appends bs hout hlen _ => rw [hout, Memory.read_write, if_neg (hlen ▸ ha)]

theorem OutputEffect.outLen_le (hq : t.seq ≠ .fail) : s.outLen ≤ t.outLen := by
  cases h with
  | withdraws hseq _ _ => exact absurd hseq hq
  | keeps _ hlen => exact hlen.ge
  | appends bs _ hlen _ => exact hlen ▸ Nat.le_add_right _ _

/-- In every state, `S_FAIL` too, where the range is empty. -/
theorem OutputEffect.isSome_read_inside (a : Nat) (hlow : s.outLen ≤ a) (hhigh : a < t.outLen) :
    (t.out.read a).isSome = true := by
  cases h with
  | withdraws _ _ hlen | keeps _ hlen => omega
  | appends bs hout hlen _ =>
    have hin : a - s.outLen < bs.length := by omega
    rw [hout, Memory.read_write, if_pos ⟨hlow, hlen ▸ hhigh⟩, List.getElem?_eq_getElem hin, Option.isSome_some]

theorem OutputEffect.outLen_le_outCap (hroom : s.outLen = 0 ∨ s.seq = .chunk ∨ s.seq = .eof)
    (hgrows : s.outLen < t.outLen) : t.outLen ≤ t.outCap := by
  cases h with
  | withdraws _ _ hlen | keeps _ hlen => omega
  | appends _ _ _ hfit => exact hfit hroom

end

end Sys2Proof.Machine

namespace Sys2Proof.Proofs.Memory

open Sys2Proof.Machine

/-- Settles O30: a step withdraws the output, keeps it, or appends to it, and each clause is read off the three. -/
theorem operationsOnlyAppend : Obligations.OperationsOnlyAppend := by
  intro i s t h
  have hout : OutputEffect s t := execWith_outputEffect (exec_eq_execWith i s ▸ h)
  exact ⟨hout.read_outside, hout.outLen_le, fun _ => hout.isSome_read_inside,
    fun hroom _ => hout.outLen_le_outCap hroom⟩

end Sys2Proof.Proofs.Memory

/-! The encoding file's statements (30_encoding): the command word and its decoder (O1 to O5), and the wire layout of a
general block (O12). -/

namespace Sys2Proof.Machine

/-! ### A command word is its four fields (30_encoding R58) -/

/-- The four fields cover the word. -/
theorem word_ext {w w' : Word} (hreserved : reservedField w = reservedField w') (hnull : nullField w = nullField w')
    (heof : eofField w = eofField w') (hop : opField w = opField w') : w = w' := by
  refine BitVec.eq_of_getLsbD_eq fun i hi => ?_
  obtain hlow | rfl | rfl | hhigh : i < 2 ∨ i = 2 ∨ i = 3 ∨ 4 ≤ i := by omega
  · simpa [opField, hlow] using congrArg (·.getLsbD i) hop
  · exact heof
  · exact hnull
  · have hin : i - 4 < 28 := by omega
    simpa [reservedField, hin, Nat.add_sub_cancel' hhigh] using congrArg (·.getLsbD (i - 4)) hreserved

section

variable (op : BitVec 2) (e n : Bool)

@[simp] theorem reservedField_commandWord : reservedField (commandWord op e n) = 0#28 := by
  revert op e n; decide

@[simp] theorem nullField_commandWord : nullField (commandWord op e n) = n := by
  revert op e n; decide

@[simp] theorem eofField_commandWord : eofField (commandWord op e n) = e := by
  revert op e n; decide

@[simp] theorem opField_commandWord : opField (commandWord op e n) = op := by
  revert op e n; decide

/-- `commandWord` sets its three fields and clears the reserved one, and no other word has those fields. -/
theorem eq_commandWord_iff (w : Word) :
    w = commandWord op e n ↔ (reservedField w = 0#28 ∧ opField w = op) ∧ e = eofField w ∧ n = nullField w := by
  constructor
  · rintro rfl
    simp
  · rintro ⟨⟨hreserved, hop⟩, rfl, rfl⟩
    exact word_ext (by simpa using hreserved) (by simp) (by simp) (by simpa using hop)

end

theorem opField_eq_zero_iff (w : Word) : opField w = 0#2 ↔ w.toNat % 4 = 0 := by
  simp [opField, BitVec.toNat_eq]

theorem reservedField_eq_zero_iff (w : Word) : reservedField w = 0#28 ↔ w.toNat / 16 = 0 := by
  have hhigh : w.toNat / 16 < 2 ^ 28 := by have := w.isLt; omega
  simp only [reservedField, BitVec.toNat_eq, BitVec.extractLsb'_toNat, Nat.shiftRight_eq_div_pow, BitVec.toNat_ofNat]
  rw [Nat.mod_eq_of_lt hhigh]

/-! ### The mask clears the two flag bits and keeps the rest (30_encoding R59) -/

@[simp] theorem reservedField_and_mask (w : Word) : reservedField (w &&& 0xFFFFFFF3#32) = reservedField w := by
  rw [reservedField, BitVec.extractLsb'_and]
  exact BitVec.and_allOnes

@[simp] theorem opField_and_mask (w : Word) : opField (w &&& 0xFFFFFFF3#32) = opField w := by
  rw [opField, BitVec.extractLsb'_and]
  exact BitVec.and_allOnes

@[simp] theorem eofField_and_mask (w : Word) : eofField (w &&& 0xFFFFFFF3#32) = false := by
  rw [eofField, BitVec.getLsbD_and]
  exact Bool.and_false _

@[simp] theorem nullField_and_mask (w : Word) : nullField (w &&& 0xFFFFFFF3#32) = false := by
  rw [nullField, BitVec.getLsbD_and]
  exact Bool.and_false _

/-- A row's match value is its operation's word with both flags 0. -/
theorem and_mask_eq_commandWord_iff (w : Word) (op : BitVec 2) :
    w &&& 0xFFFFFFF3#32 = commandWord op false false ↔ reservedField w = 0#28 ∧ opField w = op := by
  simp [eq_commandWord_iff]

theorem eq_commandWord_iff_match (w : Word) (op : BitVec 2) (e n : Bool) :
    w = commandWord op e n ↔
      w &&& 0xFFFFFFF3#32 = commandWord op false false ∧ e = w.getLsbD 2 ∧ n = w.getLsbD 3 := by
  rw [and_mask_eq_commandWord_iff, eq_commandWord_iff, eofField, nullField]

/-! ### What the decoder can answer (30_encoding R59, R60) -/

/-- The decoder's three answers: each refusal with the fields it stands for, or the operation whose word this is. -/
theorem decode_cases (w : Word) :
    (reservedField w ≠ 0#28 ∧ decode w = .error .reservedBits) ∨
      (reservedField w = 0#28 ∧ opField w = 0#2 ∧ decode w = .error .reservedOp) ∨
      (reservedField w = 0#28 ∧ opField w ≠ 0#2 ∧ ∃ i, decode w = .ok i ∧ w = encode i) := by
  by_cases hreserved : reservedField w = 0#28
  swap
  · exact .inl ⟨hreserved, if_pos hreserved⟩
  have hword {op : BitVec 2} (hop : opField w = op) : w = commandWord op (eofField w) (nullField w) :=
    (eq_commandWord_iff ..).mpr ⟨⟨hreserved, hop⟩, rfl, rfl⟩
  have hops : ∀ op : BitVec 2, op = 0 ∨ op = 1 ∨ op = 2 ∨ op = 3 := by decide
  obtain hop | hop | hop | hop := hops (opField w)
  · exact .inr (.inl ⟨hreserved, hop, by simp [decode, hreserved, hop]⟩)
  all_goals refine .inr (.inr ⟨hreserved, by simp [hop], ?_⟩)
  · exact ⟨.block .., by simp [decode, hreserved, hop], hword hop⟩
  · exact ⟨.bgzf .., by simp [decode, hreserved, hop], hword hop⟩
  · exact ⟨.gzip .., by simp [decode, hreserved, hop], hword hop⟩

/-- Decoding and encoding are inverse to each other on the words that name an operation. -/
theorem decode_eq_ok_iff (w : Word) (i : Instr) : decode w = .ok i ↔ w = encode i := by
  constructor
  · intro h
    obtain ⟨-, hd⟩ | ⟨-, -, hd⟩ | ⟨-, -, j, hd, hw⟩ := decode_cases w
    · cases hd.symm.trans h
    · cases hd.symm.trans h
    · cases hd.symm.trans h
      exact hw
  · rintro rfl
    exact decode_encode i

theorem decode_eq_reservedBits_iff (w : Word) : decode w = .error .reservedBits ↔ reservedField w ≠ 0#28 := by
  obtain ⟨hr, hd⟩ | ⟨hr, -, hd⟩ | ⟨hr, -, i, hd, -⟩ := decode_cases w <;> simp [hd, hr]

theorem decode_eq_reservedOp_iff (w : Word) :
    decode w = .error .reservedOp ↔ reservedField w = 0#28 ∧ opField w = 0#2 := by
  obtain ⟨hr, hd⟩ | ⟨hr, ho, hd⟩ | ⟨hr, ho, i, hd, -⟩ := decode_cases w
  · simp [hd, hr]
  · simp [hd, hr, ho]
  · simp [hd, ho]

theorem exists_decode_eq_ok_iff (w : Word) :
    (∃ i, decode w = .ok i) ↔ reservedField w = 0#28 ∧ opField w ≠ 0#2 := by
  obtain ⟨hr, hd⟩ | ⟨hr, ho, hd⟩ | ⟨hr, ho, i, hd, -⟩ := decode_cases w
  · simp [hd, hr]
  · simp [hd, ho]
  · simp [hd, hr, ho]

theorem commandWordWellFormed_iff (w : Word) :
    commandWordWellFormed w = true ↔ reservedField w = 0#28 ∧ opField w ≠ 0#2 := by
  simp [commandWordWellFormed]

/-! ### The packed numbers byte by byte (00_scope R13; 30_encoding R50 to R53) -/

/-- Where a byte is cut out of a number, the number need not be cut to that byte first. -/
theorem ofNat_mod_256 (v : Nat) : BitVec.ofNat 8 (v % 256) = BitVec.ofNat 8 v := by
  simp [BitVec.toNat_eq]

theorem le16_eq_bytes (v : Nat) : le16 v = [BitVec.ofNat 8 v, BitVec.ofNat 8 (v / 256)] := by
  rw [le16, ofNat_mod_256]

theorem le32_eq_bytes (v : Nat) :
    le32 v = [BitVec.ofNat 8 v, BitVec.ofNat 8 (v / 256), BitVec.ofNat 8 (v / 65536),
      BitVec.ofNat 8 (v / 16777216)] := by
  simp only [le32, ofNat_mod_256, Nat.reducePow]

/-- `le32` reads a number modulo `2 ^ 32` only. -/
theorem le32_mod (v : Nat) : le32 (v % 2 ^ 32) = le32 v := by
  have h0 : v % 2 ^ 32 % 256 = v % 256 := by omega
  have h1 : v % 2 ^ 32 / 2 ^ 8 % 256 = v / 2 ^ 8 % 256 := by omega
  have h2 : v % 2 ^ 32 / 2 ^ 16 % 256 = v / 2 ^ 16 % 256 := by omega
  have h3 : v % 2 ^ 32 / 2 ^ 24 % 256 = v / 2 ^ 24 % 256 := by omega
  rw [le32, h0, h1, h2, h3, le32]

theorem le32_toNat (w : Word) :
    le32 w.toNat = [w.extractLsb' 0 8, w.extractLsb' 8 8, w.extractLsb' 16 8, w.extractLsb' 24 8] := by
  simp only [le32, ofNat_mod_256, BitVec.extractLsb', Nat.shiftRight_eq_div_pow, Nat.pow_zero, Nat.div_one]

end Sys2Proof.Machine

namespace Sys2Proof.Proofs.Encoding

open Sys2Proof.Machine

/-- Settles O1: each word is its operation's word. -/
theorem commandWordsDecodeAsTabled : Obligations.CommandWordsDecodeAsTabled :=
  ⟨decode_encode (.block false false), decode_encode (.block true false), decode_encode (.block false true),
    decode_encode (.bgzf false false), decode_encode (.bgzf true false), decode_encode (.bgzf true true),
    decode_encode (.gzip false false), decode_encode (.gzip false true)⟩

/-- Settles O2: every operation is well formed. -/
theorem encodeThenDecodeReturnsOperation : Obligations.EncodeThenDecodeReturnsOperation :=
  fun i _ => decode_encode i

/-- Settles O3: a word with the reserved field zero is determined by the three fields that the decoder reads. -/
theorem decodeThenEncodeReturnsWord : Obligations.DecodeThenEncodeReturnsWord :=
  fun w i h => ((decode_eq_ok_iff w i).mp h).symm

/-- Settles O4: for each row, to decode to its operation is to be its word, and that is match and mask. -/
theorem decodeFollowsMatchAndMask : Obligations.DecodeFollowsMatchAndMask := by
  intro w
  refine ⟨fun e n => ?_, fun e n => ?_, fun e n => ?_, ?_⟩
  · exact (decode_eq_ok_iff w _).trans (eq_commandWord_iff_match w 0b01#2 e n)
  · exact (decode_eq_ok_iff w _).trans (eq_commandWord_iff_match w 0b10#2 e n)
  · exact (decode_eq_ok_iff w _).trans (eq_commandWord_iff_match w 0b11#2 e n)
  · rw [exists_decode_eq_ok_iff, ne_eq, opField_eq_zero_iff, reservedField_eq_zero_iff]
    tauto

/-- Settles O5: the decoder's answers by field, with the fields as numbers. -/
theorem decodeRefusesExactlyReservedWords : Obligations.DecodeRefusesExactlyReservedWords := by
  intro w
  rw [← opField_eq_zero_iff, ne_eq, ← reservedField_eq_zero_iff]
  exact ⟨decode_eq_reservedBits_iff w, decode_eq_reservedOp_iff w,
    (commandWordWellFormed_iff w).trans (exists_decode_eq_ok_iff w).symm⟩

/-- Settles O12: the general case is a frame, whose packed numbers are these bytes. -/
theorem generalBlockHasTheWireLayout : Obligations.GeneralBlockHasTheWireLayout := by
  intro c ch l cap hch
  simp only [compressBlock_general c hch, frame, hdr16, le16_eq_bytes, le32_toNat, le32_mod, le32_eq_bytes ch.length]

end Sys2Proof.Proofs.Encoding

/-! The collaborator ports' statements (40_collaborator_ports): the contracts of `DEFLATE` and `GZIPSTREAM` (O17), the
CRC accumulator (O18), and the denied grow request (O20). -/

namespace Sys2Proof

/-! ### The contracts of the ports (40_collaborator_ports R62, R67) -/

/-- What a function keeps to be a `DEFLATE` (40_collaborator_ports R62). -/
def KeepsDeflateContract (f : List Byte → Int → Nat → Option (List Byte)) : Prop :=
  ∀ ch l sp p, f ch l sp = some p → 1 ≤ p.length ∧ p.length ≤ sp ∧ -1 ≤ l ∧ l ≤ 9

/-- What a function keeps to be a `GZIPSTREAM` (40_collaborator_ports R67). -/
def KeepsGzipContract (f : List Byte → Int → Nat → Option (List Byte)) : Prop :=
  ∀ i l sp g, f i l sp = some g → 1 ≤ g.length ∧ g.length ≤ sp

theorem Config.deflate_keepsContract (c : Config) : KeepsDeflateContract c.deflate := by
  intro ch l sp p h
  obtain ⟨hlegal, hpos, hfits⟩ := Config.deflate_contract h
  exact ⟨hpos, hfits, (levelLegal_iff l).mp hlegal⟩

theorem Config.gzipStream_keepsContract (c : Config) : KeepsGzipContract c.gzipStream :=
  fun _ _ _ _ => Config.gzipStream_contract

/-- No answer has at least one byte and at most none. -/
theorem KeepsDeflateContract.eq_none_of_no_space {f : List Byte → Int → Nat → Option (List Byte)}
    (h : KeepsDeflateContract f) (ch : List Byte) (l : Int) : f ch l 0 = none := by
  refine Option.eq_none_iff_forall_ne_some.mpr fun p hp => ?_
  obtain ⟨hpos, hfits, -⟩ := h ch l 0 p hp
  omega

/-- The port takes nothing from a raw answer that keeps the contract. -/
theorem Config.deflate_eq_of_keepsContract {c : Config} (h : KeepsDeflateContract c.deflateAnswer) :
    c.deflate = c.deflateAnswer := by
  funext ch l sp
  unfold Config.deflate
  cases ha : c.deflateAnswer ch l sp with
  | none => rfl
  | some p =>
    obtain ⟨hpos, hfits, hlevel⟩ := h ch l sp p ha
    exact if_pos ⟨(levelLegal_iff l).mpr hlevel, hpos, hfits⟩

theorem Config.gzipStream_eq_of_keepsContract {c : Config} (h : KeepsGzipContract c.gzipAnswer) :
    c.gzipStream = c.gzipAnswer := by
  funext i l sp
  unfold Config.gzipStream
  cases ha : c.gzipAnswer i l sp with
  | none => rfl
  | some g => exact if_pos (h i l sp g ha)

/-- The configuration whose raw answer `f` is has `f` as its port. -/
theorem KeepsDeflateContract.exists_config {f : List Byte → Int → Nat → Option (List Byte)}
    (hf : KeepsDeflateContract f) : ∃ c : Config, c.deflate = f :=
  ⟨_, Config.deflate_eq_of_keepsContract (c := { Config.hw with deflateAnswer := f }) hf⟩

theorem KeepsGzipContract.exists_config {f : List Byte → Int → Nat → Option (List Byte)}
    (hf : KeepsGzipContract f) : ∃ c : Config, c.gzipStream = f :=
  ⟨_, Config.gzipStream_eq_of_keepsContract (c := { Config.hw with gzipAnswer := f }) hf⟩

/-! ### The CRC accumulator (40_collaborator_ports R66) -/

theorem Config.crc32_concat (c : Config) (bs : List Byte) (b : Byte) :
    c.crc32 (bs ++ [b]) = c.crcFinal (c.crcStep (bs.foldl c.crcStep c.crcInit) b) := by
  rw [Config.crc32, List.foldl_concat]

/-- Under the defaults (log 11) nothing of the configuration is left in a CRC. -/
theorem Config.UsesGzipCrc.crc32_eq {c : Config} (h : c.UsesGzipCrc) (bs : List Byte) :
    c.crc32 bs = bs.foldl gzipCrcStep 0xFFFFFFFF#32 ^^^ 0xFFFFFFFF#32 := by
  obtain ⟨hinit, hstep, hfinal⟩ := h
  have hstep : c.crcStep = gzipCrcStep := funext₂ hstep
  rw [Config.crc32, hfinal, hinit, hstep]

/-! ### The allocator (40_collaborator_ports R68) -/

/-- A request that fits no register is denied. -/
theorem Config.grants_eq_false_of_le {c : Config} {k n : Nat} (h : 2 ^ c.lenBits ≤ n) : c.grants k n = false :=
  Bool.eq_false_iff.mpr fun hg => absurd (Config.lt_of_grants hg) h.not_gt

namespace Machine

/-- The request comes before the input and the compressor, so its denial alone decides the step (42_bgzf_encoder R84;
60_exceptions R117). -/
theorem stepChunk_of_denied {c : Config} {s : State} (hleft : s.nL - s.off ≠ 0)
    (hdenied : c.grants s.draws (s.outLen + 65536) = false) :
    stepChunk c s = .next (s.drawn.failedAt .resourceExhausted s.seq.code s.off) := by
  obtain ⟨hnone, -⟩ | ⟨-, ⟨-, hstep⟩ | ⟨hgrant, -⟩⟩ := stepChunk_cases c s
  · exact absurd hnone hleft
  · exact hstep
  · exact absurd hgrant (Bool.eq_false_iff.mp hdenied)

/-- In `S_CHUNK` the step of `BGZF` is the chunk step (42_bgzf_encoder R81). -/
theorem execBgzfWith_of_chunk {c : Config} {e n : Bool} {s : State} (hs : s.seq = .chunk) :
    execBgzfWith c e n s = stepChunk c s := by
  rw [execBgzfWith, hs]

end Machine

end Sys2Proof

namespace Sys2Proof.Proofs.Ports

open Sys2Proof.Machine

/-- Settles O17: a port keeps its contract, and a function that keeps it is the port of the configuration whose raw
answer it is. -/
theorem portsKeepExactlyTheirContracts : Obligations.PortsKeepExactlyTheirContracts := by
  refine ⟨fun c ch p l sp => c.deflate_keepsContract ch l sp p, fun c => c.deflate_keepsContract.eq_none_of_no_space,
    fun c i g l sp => c.gzipStream_keepsContract i l sp g, fun f hf => ?_, fun f hf => ?_⟩
  · obtain ⟨c, rfl⟩ := KeepsDeflateContract.exists_config hf
    exact ⟨c, fun _ _ _ => rfl⟩
  · obtain ⟨c, rfl⟩ := KeepsGzipContract.exists_config hf
    exact ⟨c, fun _ _ _ => rfl⟩

/-- Settles O18: the accumulator is a left fold, and the check values are its run under the default step. -/
theorem crcAccumulatesByteByByte : Obligations.CrcAccumulatesByteByByte := by
  refine ⟨fun _ => rfl, fun c bs b => ⟨_, rfl, c.crc32_concat bs b⟩, fun c h => ?_⟩
  simp [h.crc32_eq, gzipCrcStep, gzipCrcBit]

/-- Settles O20: the bound of the allocator, and the chunk step in `S_CHUNK`, whose code is 2. -/
theorem deniedGrowRequestFailsTheChunk : Obligations.DeniedGrowRequestFailsTheChunk := by
  refine ⟨fun c k n => Config.grants_eq_false_of_le, fun e n s hs hleft hdenied => ?_⟩
  calc exec (.bgzf e n) s
    _ = stepChunk Config.hw s := execBgzfWith_of_chunk hs
    _ = .next (s.drawn.failedAt .resourceExhausted s.seq.code s.off) := stepChunk_of_denied hleft.ne' hdenied
    _ = .next (s.drawn.failedAt .resourceExhausted 2#3 s.off) := by rw [hs]; rfl

end Sys2Proof.Proofs.Ports

/-! The block compressor's statements (41_block_compressor): the zero-length block (O11), what every block shows of
itself (O13), the step of `S_BLOCK` (O14, O15, O16), and the whole `BLOCK` command (O53). -/

namespace Sys2Proof.Machine

/-! ### The fields of a frame (30_encoding R48 to R53) -/

section

variable (p : List Byte) (crc : Word) (n : Nat)

theorem take_frame : (frame p crc n).take 16 = hdr16 := by
  simp only [frame, List.append_assoc]
  exact List.take_left' hdr16_length

/-- `BSIZE + 1` is the block's length, for a payload that leaves `BSIZE` its 16 bits (30_encoding R50, R56). -/
theorem bsize_frame (hp : p.length + 26 ≤ 65536) :
    ((frame p crc n).getD 16 0).toNat + 256 * ((frame p crc n).getD 17 0).toNat + 1 = (frame p crc n).length := by
  have hlow : ((frame p crc n).getD 16 0).toNat = (p.length + 25) % 256 := by simp [frame, hdr16, le16]
  have hhigh : ((frame p crc n).getD 17 0).toNat = (p.length + 25) / 256 % 256 := by simp [frame, hdr16, le16]
  rw [hlow, hhigh, frame_length]
  omega

theorem frame_eq_body_append : ∃ body, body.length = p.length + 18 ∧
    frame p crc n = body ++ (le32 crc.toNat ++ le32 (n % 2 ^ 32)) := by
  refine ⟨hdr16 ++ le16 (p.length + 25) ++ p, ?_, by simp only [frame, List.append_assoc]⟩
  simp only [List.length_append, hdr16_length, le16_length]
  omega

/-- The last four bytes are `ISIZE`. -/
theorem drop_frame_isize : (frame p crc n).drop ((frame p crc n).length - 4) = le32 n := by
  obtain ⟨body, hbody, hframe⟩ := frame_eq_body_append p crc n
  rw [frame_length, hframe, ← List.append_assoc, le32_mod]
  exact List.drop_left' (by simp only [List.length_append, hbody, le32_length]; omega)

/-- The four bytes before `ISIZE` are the CRC field. -/
theorem take_drop_frame_crc : ((frame p crc n).drop ((frame p crc n).length - 8)).take 4 = le32 crc.toNat := by
  obtain ⟨body, hbody, hframe⟩ := frame_eq_body_append p crc n
  rw [frame_length, hframe, List.drop_left' (by omega)]
  exact List.take_left' (le32_length _)

end

/-! ### Every block is a frame (41_block_compressor R72, R79) -/

/-- 30_encoding R54: the marker is the frame of the two-byte empty DEFLATE stream. -/
theorem eofMarker_eq_frame : eofMarker = frame [0x03, 0x00] 0#32 0 := by decide

/-- In both cases the block is a frame around the chunk's length. Its CRC is the chunk's, but that the marker's zero is
the CRC of nothing under the default parameters only (log 11). -/
theorem compressBlock_eq_frame {c : Config} {ch b : List Byte} {l : Int} {cap : Nat}
    (h : compressBlock c ch l cap = some b) :
    ∃ p crc, b = frame p crc ch.length ∧ (ch ≠ [] ∨ c.UsesGzipCrc → crc = c.crc32 ch) := by
  obtain ⟨rfl, -, rfl⟩ | ⟨-, p, -, rfl⟩ := compressBlock_cases h
  · refine ⟨_, _, eofMarker_eq_frame, ?_⟩
    rintro (hne | hcrc)
    · exact absurd rfl hne
    · exact (hcrc.crc32_eq []).symm
  · exact ⟨p, _, rfl, fun _ => rfl⟩

/-- A chunk's length needs the two low bytes of `ISIZE` only. -/
theorem le32_map_toNat_of_lt {v : Nat} (h : v < 2 ^ 16) : (le32 v).map BitVec.toNat = [v % 256, v / 256, 0, 0] := by
  have h1 : v / 2 ^ 8 % 256 = v / 256 := by omega
  have h2 : v / 2 ^ 16 % 256 = 0 := by omega
  have h3 : v / 2 ^ 24 % 256 = 0 := by omega
  rw [le32_map_toNat, h1, h2, h3]

/-- At a capacity of at least 28 the empty chunk is the marker, whatever the level. -/
theorem compressBlock_nil_of_le (c : Config) (l : Int) {cap : Nat} (h : 28 ≤ cap) :
    compressBlock c [] l cap = some eofMarker := by
  rw [compressBlock_nil, if_neg h.not_gt]

theorem compressBlock_nil_length {c : Config} {b : List Byte} {l : Int} {cap : Nat}
    (h : compressBlock c [] l cap = some b) : b.length = 28 := by
  obtain ⟨-, -, rfl⟩ | ⟨hne, -⟩ := compressBlock_cases h
  · exact eofMarker_length
  · exact absurd rfl hne

/-! ### The validation of `BLOCK` (41_block_compressor R78, R80) -/

section

variable {c : Config} {e n : Bool} {s : State}

/-- Inside its domain a `BLOCK` command is dispatched; the level is not looked at. -/
theorem execWith_block_of_validate (hs : s.seq = .validate) (hn : s.nL ≤ 65280) (hcap : s.capL ≤ 65536) :
    execWith c (.block e false) s = .next { s with seq := .block } := by
  have hin : ¬(s.nL > chunkMax ∨ s.capL > blockMax) := not_or.mpr ⟨hn.not_gt, hcap.not_gt⟩
  rw [execWith, execBlockWith, hs]
  exact congrArg Host.Outcome.next (if_neg hin)

theorem execWith_block_of_outside (hs : s.seq = .validate) (hout : s.nL > 65280 ∨ s.capL > 65536) :
    execWith c (.block e n) s = .next (s.failedAt .invalidArgument 1#3 0) := by
  rw [execWith, execBlockWith, hs, ← State.failWith_validate hs]
  cases n with
  | true => rfl
  | false => exact congrArg Host.Outcome.next (if_pos hout)

end

/-! ### The step of `S_BLOCK` (41_block_compressor R77) -/

/-- The state in which a `BLOCK` command has emitted the block `b` (41_block_compressor R77). -/
def State.blockDone (s : State) (b : List Byte) : State :=
  { s with outCap := s.capL, out := s.out.write s.outLen b, outLen := s.outLen + b.length, seq := .done }

@[simp] theorem State.blockDone_out (s : State) (b : List Byte) : (s.blockDone b).out = s.out.write s.outLen b := rfl

@[simp] theorem State.blockDone_outLen (s : State) (b : List Byte) :
    (s.blockDone b).outLen = s.outLen + b.length := rfl

section

variable {c : Config} {e n : Bool} {s : State} {ch : List Byte}

/-- In `S_BLOCK` the step of `BLOCK` is the block step (41_block_compressor R71). -/
theorem execWith_block_of_block (hs : s.seq = .block) : execWith c (.block e n) s = stepBlock c s := by
  rw [execWith, execBlockWith, hs]

theorem execWith_block_fails (hs : s.seq = .block) (hi : s.input.slice 0 s.nL = some ch)
    (hb : compressBlock c ch s.levelL s.capL = none) :
    ∃ t, execWith c (.block e n) s = .next t ∧
      t.forgetTemporaries = (s.failedAt .compressFailed 4#3 0).forgetTemporaries := by
  rw [execWith_block_of_block hs]
  obtain ⟨hi', -⟩ | ⟨ch', hi', ⟨-, t, ht, hf⟩ | ⟨b, hb', -⟩⟩ := stepBlock_cases c s
  · cases hi'.symm.trans hi
  · rw [hs] at hf
    exact ⟨t, ht, hf⟩
  · cases hi'.symm.trans hi
    cases hb'.symm.trans hb

theorem execWith_block_done {b : List Byte} (hs : s.seq = .block) (hi : s.input.slice 0 s.nL = some ch)
    (hb : compressBlock c ch s.levelL s.capL = some b) :
    ∃ t, execWith c (.block e n) s = .next t ∧ t.forgetTemporaries = (s.blockDone b).forgetTemporaries := by
  rw [execWith_block_of_block hs]
  obtain ⟨hi', -⟩ | ⟨ch', hi', ⟨hb', -⟩ | ⟨b', hb', t, ht, hf⟩⟩ := stepBlock_cases c s
  · cases hi'.symm.trans hi
  · cases hi'.symm.trans hi
    cases hb'.symm.trans hb
  · cases hi'.symm.trans hi
    cases hb'.symm.trans hb
    exact ⟨t, ht, hf⟩

end

/-- 20_memory R33, R34: the bytes written are read back. -/
theorem Memory.slice_write {m : Memory} (hm : m.wf) (a : Nat) (bs : List Byte) :
    (m.write a bs).slice a bs.length = some bs :=
  (Memory.slice_eq_some _ _ _ _ (Memory.wf_write m a bs hm)).mpr ⟨rfl, fun i hi => m.read_write_inside a bs i hi⟩

/-- With nothing appended before, `OUT[0..OUT_LEN)` is the block. -/
theorem State.slice_blockDone {s : State} (hwf : s.out.wf) (h0 : s.outLen = 0) (b : List Byte) :
    (s.blockDone b).out.slice 0 (s.blockDone b).outLen = some b := by
  rw [State.blockDone_out, State.blockDone_outLen, h0, Nat.zero_add]
  exact Memory.slice_write hwf 0 b

/-! ### The whole command (70_reset_and_hazards R139) -/

/-- With no host line pending, a step of a busy machine is one of the operation whose word is latched. -/
theorem stepWith_of_encode {c : Config} {i : Instr} {s : State} (htodo : s.hostTodo = []) (hb : s.busy = true)
    (hw : s.cmdL = encode i) : stepWith c s = execWith c i s := by
  have hd : decode s.cmdL = .ok i := (decode_eq_ok_iff s.cmdL i).mpr hw
  rw [stepWith, turn_of_nil htodo, engineTurn_of_decode hb hd]

theorem run_one (c : Config) (s : State) : Host.Core.run (coreWith c) 1 s = stepWith c s := by
  cases h : stepWith c s with
  | next t => exact run_succ 0 h
  | fault r => exact run_succ_of_fault 0 h
  | refused r => exact run_succ_of_refused 0 h

/-- A command's result says nothing of the datapath temporaries. -/
theorem State.DoneWith.of_forgetTemporaries {s t : State} {bytes : List Byte}
    (h : t.forgetTemporaries = s.forgetTemporaries) (hs : s.DoneWith bytes) : t.DoneWith bytes := by
  have hview : s.forgetTemporaries.DoneWith bytes := { hs with }
  exact { h ▸ hview with }

theorem State.FailedWith.of_forgetTemporaries {s t : State} {e : ErrClass} {k : BitVec 3} {o : Nat}
    (h : t.forgetTemporaries = s.forgetTemporaries) (hs : s.FailedWith e k o) : t.FailedWith e k o := by
  have hview : s.forgetTemporaries.FailedWith e k o := { hs with }
  exact { h ▸ hview with }

theorem State.failedWith_failedAt (s : State) (e : ErrClass) (k : BitVec 3) (o : Nat) :
    (s.failedAt e k o).FailedWith e k o := ⟨rfl, rfl, rfl, rfl, rfl, rfl⟩

section

variable {c : Config} {e : Bool} {s : State} {S : List Byte} (h : s.StartedWith (.block e false) S)

include h

theorem State.StartedWith.doneWith_blockDone (b : List Byte) : (s.blockDone b).DoneWith b where
  seq := rfl
  outLen := by simp [h.outLen]
  out := State.slice_blockDone (h.out ▸ Memory.wf_nil) h.outLen b
  err := h.err
  stage := h.stage
  errOffset := h.errOffset

theorem State.StartedWith.stepWith_block : stepWith c s = execWith c (.block e false) s :=
  stepWith_of_encode h.hostTodo (by rw [State.busy, h.seq]; rfl) h.word

/-- Outside its domain a `BLOCK` command fails in its first step (41_block_compressor R80). -/
theorem State.StartedWith.run_block_outside (hout : S.length > 65280 ∨ s.capL > 65536) :
    Host.Core.run (coreWith c) 2 s = .next (s.failedAt .invalidArgument 1#3 0) := by
  have hstep : stepWith c s = .next (s.failedAt .invalidArgument 1#3 0) :=
    h.stepWith_block.trans (execWith_block_of_outside h.seq (h.length ▸ hout))
  exact (run_succ 1 hstep).trans (run_waits 1 h.hostTodo rfl)

/-- Inside its domain the second step of a `BLOCK` command is the step of `S_BLOCK`. -/
theorem State.StartedWith.run_block_inside (hn : S.length ≤ 65280) (hcap : s.capL ≤ 65536) :
    Host.Core.run (coreWith c) 2 s = execWith c (.block e false) { s with seq := .block } := by
  have hstep : stepWith c s = .next { s with seq := .block } :=
    h.stepWith_block.trans (execWith_block_of_validate h.seq (h.length ▸ hn) hcap)
  rw [run_succ 1 hstep, run_one]
  exact stepWith_of_encode h.hostTodo rfl h.word

end

end Sys2Proof.Machine

namespace Sys2Proof.Proofs.Block

open Sys2Proof.Machine

/-- Settles O13: every block is a frame, and each clause reads one field of it. -/
theorem everyBlockKeepsTheHeaderInvariants : Obligations.EveryBlockKeepsTheHeaderInvariants := by
  intro c ch b l cap hch hcap h
  obtain ⟨hmin, hmax⟩ := compressBlock_length h
  obtain ⟨p, crc, rfl, hcrc⟩ := compressBlock_eq_frame h
  have hp : p.length + 26 ≤ 65536 := frame_length p crc ch.length ▸ hmax.trans hcap
  refine ⟨take_frame .., bsize_frame p crc _ hp, ?_, ?_, hmin, hmax, ?_⟩
  · rw [drop_frame_isize, le32_map_toNat_of_lt (by omega)]
  · intro hdefault
    rw [take_drop_frame_crc, hcrc hdefault]
  · rintro rfl
    exact compressBlock_nil_length h

/-- Settles O14: the step of `S_BLOCK` follows what `compress_block` answers. -/
theorem blockStepEmitsOneBlockOrFails : Obligations.BlockStepEmitsOneBlockOrFails := by
  intro e n s ch hs hi
  rw [exec_eq_execWith]
  cases hb : compressBlock Config.hw ch (sint32 s.lvlL) s.capL with
  | none =>
    obtain ⟨t, ht, hf⟩ := execWith_block_fails (e := e) (n := n) hs hi hb
    exact ⟨t, ht, hf, fun r hr => nomatch hr⟩
  | some b =>
    obtain ⟨t, ht, hf⟩ := execWith_block_done (e := e) (n := n) hs hi hb
    have hlen : t.outLen = (s.blockDone b).outLen := by simpa using congrArg State.outLen hf
    have hout : t.out = (s.blockDone b).out := by simpa using congrArg State.out hf
    refine ⟨t, ht, hf, ?_⟩
    rintro r ⟨⟩ hwf h0
    rw [hout, hlen]
    exact ⟨by simp [h0], State.slice_blockDone hwf h0 b⟩

/-- Settles O16: validation looks at the length and the capacity only, and an illegal level is a failure of
`compress_block`. -/
theorem blockReportsIllegalLevelAsCompressFailed : Obligations.BlockReportsIllegalLevelAsCompressFailed := by
  refine ⟨fun e s hs hn hcap => ?_, fun e n s ch hs hi hch hlevel => ?_⟩
  · rw [exec_eq_execWith]
    exact execWith_block_of_validate hs hn hcap
  · rw [← sint32_eq_toInt] at hlevel
    rw [exec_eq_execWith]
    exact execWith_block_fails hs hi (compressBlock_illegal_level hch hlevel s.capL)

/-- Settles O53: the first step validates, and inside the domain the second is the step of `S_BLOCK`. -/
theorem blockCommandComputesItsBlock : Obligations.BlockCommandComputesItsBlock := by
  intro c s e S h _
  by_cases hdom : S.length > 65280 ∨ s.capL > 65536
  · simp only [if_pos hdom]
    exact ⟨_, h.run_block_outside hdom, s.failedWith_failedAt ..⟩
  · simp only [if_neg hdom]
    obtain ⟨hn, hcap⟩ := not_or.mp hdom
    rw [h.run_block_inside (Nat.not_lt.mp hn) (Nat.not_lt.mp hcap)]
    have hi : s.input.slice 0 s.nL = some S := h.length ▸ h.input
    cases hb : compressBlock c S (sint32 s.lvlL) s.capL with
    | none =>
      obtain ⟨t, ht, hf⟩ := execWith_block_fails (s := { s with seq := .block }) rfl hi hb
      exact ⟨t, ht, .of_forgetTemporaries hf (State.failedWith_failedAt ..)⟩
    | some b =>
      obtain ⟨t, ht, hf⟩ := execWith_block_done (s := { s with seq := .block }) rfl hi hb
      exact ⟨t, ht, .of_forgetTemporaries hf (h.doneWith_blockDone b)⟩

/-- Settles O11: the zero-length case asks no collaborator. -/
theorem zeroLengthBlockIsTheLiteralMarker : Obligations.ZeroLengthBlockIsTheLiteralMarker := compressBlock_nil

/-- Settles O15: with no byte to read and room for the marker, the step of `S_BLOCK` cannot fail. -/
theorem blockOfEmptyChunkCompletes : Obligations.BlockOfEmptyChunkCompletes := by
  intro e n s hs h0 hcap
  have hi : s.input.slice 0 s.nL = some [] := by rw [h0, Memory.slice_zero]
  rw [exec_eq_execWith]
  exact execWith_block_done hs hi (compressBlock_nil_of_le _ _ hcap)

end Sys2Proof.Proofs.Block

/-! The chunking sequencer's statements (42_bgzf_encoder): the chunks of an input (O55), the encoding as a function
(O56, O57, O58), the steps of `S_CHUNK` and `S_EOF` (O19, O21, O22, O31), and the whole `BGZF` command (O50, O51). -/

namespace Sys2Proof.Machine

/-! ### The chunks of an input (42_bgzf_encoder R83, R91)

`chunks` numbers the chunks; the sequencer takes them off the front of what is left. The two meet in
`chunks_of_ne_nil`, and what is proved of the chunks follows the second. -/

/-- Induction on an input by its first chunk. -/
theorem chunkInduction {motive : List Byte → Prop} (nil : motive [])
    (cons : ∀ R, R ≠ [] → motive (R.drop 65280) → motive R) (R : List Byte) : motive R := by
  by_cases h : R = []
  · exact h ▸ nil
  · have hpos : 0 < R.length := List.length_pos_iff.mpr h
    exact cons R h (chunkInduction nil cons (R.drop 65280))
termination_by R.length
decreasing_by simp only [List.length_drop]; omega

theorem chunkCount_of_ne_nil {S : List Byte} (h : S ≠ []) :
    chunkCount S.length = chunkCount (S.drop 65280).length + 1 := by
  have hpos : 0 < S.length := List.length_pos_iff.mpr h
  simp only [chunkCount, List.length_drop]
  omega

theorem chunkAt_zero (S : List Byte) : chunkAt S 0 = S.take 65280 := rfl

theorem chunkAt_succ (S : List Byte) (k : Nat) : chunkAt S (k + 1) = chunkAt (S.drop 65280) k := by
  rw [chunkAt, chunkAt, List.drop_drop, Nat.mul_succ, Nat.add_comm]

theorem chunkAt_length (S : List Byte) (k : Nat) : (chunkAt S k).length = min (S.length - 65280 * k) 65280 := by
  rw [chunkAt, List.length_take, List.length_drop, Nat.min_comm]

@[simp] theorem chunks_nil : chunks [] = [] := rfl

theorem chunks_of_ne_nil {S : List Byte} (h : S ≠ []) :
    chunks S = S.take 65280 :: chunks (S.drop 65280) := by
  simp only [chunks, chunkCount_of_ne_nil h, List.range_succ_eq_map, List.map_cons, List.map_map, chunkAt_zero]
  congr 2
  exact funext (chunkAt_succ S)

@[simp] theorem chunks_length (S : List Byte) : (chunks S).length = chunkCount S.length := by
  simp [chunks]

theorem chunks_flatten (S : List Byte) : (chunks S).flatten = S := by
  induction S using chunkInduction with
  | nil => rfl
  | cons S h ih => rw [chunks_of_ne_nil h, List.flatten_cons, ih, List.take_append_drop]

theorem chunks_getElem? {S : List Byte} {k : Nat} (h : k < chunkCount S.length) :
    (chunks S)[k]? = some (chunkAt S k) := by
  simp [chunks, h]

theorem length_of_mem_chunks {S ch : List Byte} (h : ch ∈ chunks S) : 1 ≤ ch.length ∧ ch.length ≤ 65280 := by
  induction S using chunkInduction with
  | nil => cases h
  | cons S hS ih =>
    rw [chunks_of_ne_nil hS, List.mem_cons] at h
    obtain rfl | h := h
    · have hpos : 0 < S.length := List.length_pos_iff.mpr hS
      rw [List.length_take]
      omega
    · exact ih h

/-! ### The blocks of a list of chunks (42_bgzf_encoder R90) -/

section

variable {c : Config} {l : Int} {k : Nat} {ch : List Byte} {rest : List (List Byte)}

theorem encodeChunks_cons_of_none (h : compressBlock c ch l 65536 = none) :
    encodeChunks c l k (ch :: rest) = .error k := by
  rw [encodeChunks, h]

theorem encodeChunks_cons_of_some {b : List Byte} (h : compressBlock c ch l 65536 = some b) :
    encodeChunks c l k (ch :: rest) = (encodeChunks c l (k + 1) rest).map (b ++ ·) := by
  rw [encodeChunks, h]
  cases encodeChunks c l (k + 1) rest <;> rfl

theorem encodeChunks_cons_eq_ok {bs : List Byte} (h : encodeChunks c l k (ch :: rest) = .ok bs) :
    ∃ b bs', compressBlock c ch l 65536 = some b ∧ encodeChunks c l (k + 1) rest = .ok bs' ∧ bs = b ++ bs' := by
  cases hb : compressBlock c ch l 65536 with
  | none => rw [encodeChunks_cons_of_none hb] at h; cases h
  | some b =>
    rw [encodeChunks_cons_of_some hb] at h
    cases hrest : encodeChunks c l (k + 1) rest with
    | error j => rw [hrest] at h; cases h
    | ok bs' => rw [hrest] at h; cases h; exact ⟨b, bs', rfl, rfl, rfl⟩

end

theorem encodeChunks_length {c : Config} {l : Int} {k : Nat} {chs : List (List Byte)} {bs : List Byte}
    (h : encodeChunks c l k chs = .ok bs) : 27 * chs.length ≤ bs.length ∧ bs.length ≤ 65536 * chs.length := by
  induction chs generalizing k bs with
  | nil => cases h; exact ⟨Nat.le_refl 0, Nat.le_refl 0⟩
  | cons ch rest ih =>
    obtain ⟨b, bs', hb, hrest, rfl⟩ := encodeChunks_cons_eq_ok h
    have hblock := compressBlock_length hb
    have hblocks := ih hrest
    simp only [List.length_append, List.length_cons]
    omega

/-- 40_collaborator_ports R65: under `DEFLATE_FITS` no chunk fails. -/
theorem exists_encodeChunks_of_deflateFits {c : Config} (hfits : c.DeflateFits) {l : Int}
    (hl : levelLegal l = true) (k : Nat) {chs : List (List Byte)}
    (hlen : ∀ ch ∈ chs, 1 ≤ ch.length ∧ ch.length ≤ 65280) : ∃ bs, encodeChunks c l k chs = .ok bs := by
  induction chs generalizing k with
  | nil => exact ⟨[], rfl⟩
  | cons ch rest ih =>
    obtain ⟨hmin, hmax⟩ := hlen ch List.mem_cons_self
    obtain ⟨p, hp⟩ := Option.ne_none_iff_exists'.mp (hfits ch l hmin hmax hl)
    have hb : compressBlock c ch l 65536 = some (frame p (c.crc32 ch) ch.length) := by
      rw [compressBlock_general c (List.ne_nil_of_length_pos hmin), hp, Option.map_some]
    obtain ⟨bs, hbs⟩ := ih (k + 1) fun ch' h => hlen ch' (List.mem_cons_of_mem ch h)
    exact ⟨_, by rw [encodeChunks_cons_of_some hb, hbs, Except.map]⟩

/-! ### The encoding (42_bgzf_encoder R90, R92) -/

/-- What the bit `EOF` adds to an encoding. -/
def markerBytes (e : Bool) : List Byte := if e then eofMarker else []

theorem markerBytes_length (e : Bool) : (markerBytes e).length = if e = true then 28 else 0 := by
  cases e <;> rfl

section

variable {c : Config} {S : List Byte} {l : Int}

theorem bgzfEncode_of_illegal (hl : levelLegal l = false) (e : Bool) :
    bgzfEncode c S l e = .error (.invalidArgument, 0) := by
  rw [bgzfEncode, hl, if_neg Bool.false_ne_true]

theorem bgzfEncode_of_error (hl : levelLegal l = true) {k : Nat} (h : encodeChunks c l 0 (chunks S) = .error k)
    (e : Bool) : bgzfEncode c S l e = .error (.compressFailed, 65280 * k) := by
  rw [bgzfEncode, if_pos hl, h]

theorem bgzfEncode_of_ok (hl : levelLegal l = true) {bs : List Byte} (h : encodeChunks c l 0 (chunks S) = .ok bs)
    (e : Bool) : bgzfEncode c S l e = .ok (bs ++ markerBytes e) := by
  rw [bgzfEncode, if_pos hl, h, markerBytes]

theorem bgzfEncode_eq_ok {e : Bool} {bytes : List Byte} (h : bgzfEncode c S l e = .ok bytes) :
    ∃ bs, encodeChunks c l 0 (chunks S) = .ok bs ∧ bytes = bs ++ markerBytes e := by
  cases hl : levelLegal l with
  | false => rw [bgzfEncode_of_illegal hl] at h; cases h
  | true =>
    cases hbs : encodeChunks c l 0 (chunks S) with
    | error k => rw [bgzfEncode_of_error hl hbs] at h; cases h
    | ok bs => rw [bgzfEncode_of_ok hl hbs] at h; cases h; exact ⟨bs, rfl, rfl⟩

theorem bgzfEncode_true_eq_map : bgzfEncode c S l true = (bgzfEncode c S l false).map (· ++ eofMarker) := by
  cases hl : levelLegal l with
  | false => rw [bgzfEncode_of_illegal hl, bgzfEncode_of_illegal hl]; rfl
  | true =>
    cases hbs : encodeChunks c l 0 (chunks S) with
    | error k => rw [bgzfEncode_of_error hl hbs, bgzfEncode_of_error hl hbs]; rfl
    | ok bs =>
      rw [bgzfEncode_of_ok hl hbs, bgzfEncode_of_ok hl hbs]
      simp [markerBytes, Except.map]

/-- With no chunk no collaborator is asked. -/
theorem bgzfEncode_nil (hl : levelLegal l = true) (e : Bool) : bgzfEncode c [] l e = .ok (markerBytes e) :=
  bgzfEncode_of_ok (bs := []) hl rfl e

end

/-! ### Reading blocks back (30_encoding R50; 41_block_compressor R79) -/

section

variable {inflate : List Byte → Option (List Byte × Nat)} {crc : List Byte → Word}

/-- A reader that finds a block with these fields at the front takes it off. -/
theorem readBlocks_of_block {all ch : List Byte} {blen : Nat} (n : Nat) (hne : all ≠ [])
    (hhdr : all.take 16 = hdr16)
    (hblen : (all.getD 16 0).toNat + 256 * (all.getD 17 0).toNat + 1 = blen) (hmin : 27 ≤ blen)
    (hmax : blen ≤ all.length) (hinflate : inflate ((all.drop 18).take (blen - 26)) = some (ch, blen - 26))
    (hcrc : (all.drop (blen - 8)).take 4 = le32 (crc ch).toNat)
    (hisize : (all.drop (blen - 4)).take 4 = le32 (ch.length % 2 ^ 32)) :
    readBlocks inflate crc (n + 1) all = (readBlocks inflate crc n (all.drop blen)).map (ch ++ ·) := by
  cases all with
  | nil => exact absurd rfl hne
  | cons b bs =>
    simp only [readBlocks, hblen]
    rw [if_pos ⟨hhdr, hmin, hmax⟩, hinflate]
    dsimp only
    rw [if_pos ⟨rfl, hcrc, hisize⟩]
    cases readBlocks inflate crc n ((b :: bs).drop blen) <;> rfl

theorem take_drop_frame_payload (p : List Byte) (w : Word) (n : Nat) :
    ((frame p w n).drop 18).take p.length = p := by
  have hframe : frame p w n = (hdr16 ++ le16 (p.length + 25)) ++ (p ++ (le32 w.toNat ++ le32 (n % 2 ^ 32))) := by
    simp only [frame, List.append_assoc]
  rw [hframe, List.drop_left' (by simp), List.take_left' rfl]

/-- What is cut from within the first part does not see the second. -/
theorem take_drop_append_of_le {xs : List Byte} {i k : Nat} (h : i + k ≤ xs.length) (ys : List Byte) :
    ((xs ++ ys).drop i).take k = (xs.drop i).take k := by
  rw [List.drop_append_of_le_length (by omega), List.take_append_of_le_length (by rw [List.length_drop]; omega)]

/-- A reader takes a frame off whose payload decodes to the chunk. -/
theorem readBlocks_frame_append {p ch : List Byte} (hinflate : inflate p = some (ch, p.length))
    (hpos : 1 ≤ p.length) (hfits : p.length + 26 ≤ 65536) (n : Nat) (rest : List Byte) :
    readBlocks inflate crc (n + 1) (frame p (crc ch) ch.length ++ rest) =
      (readBlocks inflate crc n rest).map (ch ++ ·) := by
  have hlen := frame_length p (crc ch) ch.length
  have hbsize := bsize_frame p (crc ch) ch.length hfits
  have hcrc := take_drop_frame_crc p (crc ch) ch.length
  have hisize := drop_frame_isize p (crc ch) ch.length
  have hpayload := take_drop_frame_payload p (crc ch) ch.length
  have hhdr := take_frame p (crc ch) ch.length
  generalize frame p (crc ch) ch.length = b at hlen hbsize hcrc hisize hpayload hhdr ⊢
  have hsize : b.length - 26 = p.length := by omega
  rw [readBlocks_of_block (ch := ch) (blen := b.length) n, List.drop_left' rfl]
  · exact List.ne_nil_of_length_pos (by rw [List.length_append]; omega)
  · rw [List.take_append_of_le_length (by omega), hhdr]
  · rw [List.getD_append _ _ _ _ (by omega), List.getD_append _ _ _ _ (by omega), hbsize]
  · omega
  · rw [List.length_append]; omega
  · rw [hsize, take_drop_append_of_le (by omega), hpayload, hinflate]
  · rw [take_drop_append_of_le (by omega), hcrc]
  · rw [take_drop_append_of_le (by omega), hisize, le32_mod, List.take_of_length_le (le32_length _).le]

end

theorem readBlocks_encodeChunks {c : Config} {inflate : List Byte → Option (List Byte × Nat)}
    (hsound : c.DeflateSound inflate) {l : Int} {k : Nat} {chs : List (List Byte)} {bs : List Byte}
    (hne : ∀ ch ∈ chs, ch ≠ []) (h : encodeChunks c l k chs = .ok bs) :
    readBlocks inflate c.crc32 chs.length bs = some chs.flatten := by
  induction chs generalizing k bs with
  | nil => cases h; rfl
  | cons ch rest ih =>
    obtain ⟨b, bs', hb, hrest, rfl⟩ := encodeChunks_cons_eq_ok h
    obtain ⟨hch, hne⟩ := List.forall_mem_cons.mp hne
    obtain ⟨rfl, -⟩ | ⟨-, p, hp, rfl⟩ := compressBlock_cases hb
    · exact absurd rfl hch
    · obtain ⟨-, hpos, hfits⟩ := Config.deflate_contract hp
      rw [List.length_cons, readBlocks_frame_append (hsound ch l _ p hp) hpos (by omega), ih hne hrest,
        Option.map_some, List.flatten_cons]

/-! ### The step of `S_CHUNK` (42_bgzf_encoder R84 to R86) -/

/-- The state in which a chunk step has appended the block `b` (42_bgzf_encoder R84, R85). -/
def State.chunkAppended (s : State) (b : List Byte) : State :=
  { s with
    outCap := s.outLen + 65536
    out := s.out.write s.outLen b
    outLen := s.outLen + b.length
    off := s.off + s.chunkSize
    draws := s.draws + 1 }

section

variable {c : Config} {s : State} {ch : List Byte}

theorem stepChunk_of_nothing_left (h0 : s.nL - s.off = 0) : stepChunk c s = .next { s with seq := .eof } := by
  obtain ⟨-, h⟩ | ⟨hleft, -⟩ := stepChunk_cases c s
  · exact h
  · exact absurd h0 hleft

/-- With the request granted and the chunk there, `compress_block` decides the step. -/
theorem stepChunk_of_granted (hs : s.seq = .chunk) (hleft : s.nL - s.off ≠ 0)
    (hg : c.grants s.draws (s.outLen + 65536) = true) (hi : s.input.slice s.off s.chunkSize = some ch) :
    (compressBlock c ch s.levelL 65536 = none ∧
      ∃ t, stepChunk c s = .next t ∧
        t.forgetTemporaries = (s.drawn.failedAt .compressFailed 2#3 s.off).forgetTemporaries) ∨
    ∃ b, compressBlock c ch s.levelL 65536 = some b ∧
      ∃ t, stepChunk c s = .next t ∧ t.forgetTemporaries = (s.chunkAppended b).forgetTemporaries := by
  obtain ⟨h0, -⟩ | ⟨-, ⟨hdenied, -⟩ | ⟨-, ⟨hnone, -⟩ | ⟨ch', hi', ⟨hb, t, ht, hf⟩ | ⟨b, hb, t, ht, hf⟩⟩⟩⟩ :=
    stepChunk_cases c s
  · exact absurd h0 hleft
  · cases hdenied.symm.trans hg
  · cases hnone.symm.trans hi
  · cases hi'.symm.trans hi
    rw [hs] at hf
    exact .inl ⟨hb, t, ht, hf⟩
  · cases hi'.symm.trans hi
    rw [← hs] at hf
    exact .inr ⟨b, hb, t, ht, hf⟩

end

/-- In `S_EOF` the step of `BGZF` is the step of `S_EOF` (42_bgzf_encoder R81). -/
theorem execBgzfWith_of_eof {c : Config} {e n : Bool} {s : State} (hs : s.seq = .eof) :
    execBgzfWith c e n s = stepEof c e s := by
  rw [execBgzfWith, hs]

section

variable {c : Config} {e : Bool} {s : State}

theorem stepWith_of_chunk (htodo : s.hostTodo = []) (hs : s.seq = .chunk) (hw : s.cmdL = encode (.bgzf e false)) :
    stepWith c s = stepChunk c s :=
  (stepWith_of_encode htodo (by rw [State.busy, hs]; rfl) hw).trans (execBgzfWith_of_chunk hs)

theorem stepWith_of_eof (htodo : s.hostTodo = []) (hs : s.seq = .eof) (hw : s.cmdL = encode (.bgzf e false)) :
    stepWith c s = stepEof c e s :=
  (stepWith_of_encode htodo (by rw [State.busy, hs]; rfl) hw).trans (execBgzfWith_of_eof hs)

end

/-! ### What moves `OFF` (10_state R25) -/

/-- The step from `s` to `t` appends the block of one chunk (42_bgzf_encoder R84, R85). -/
structure State.AppendsChunk (s t : State) : Prop where
  before : s.seq = .chunk
  after : t.seq = .chunk
  left : s.off < s.nL
  off : t.off = s.off + s.chunkSize
  outLenMin : s.outLen + 27 ≤ t.outLen
  outLenMax : t.outLen ≤ s.outLen + 65536

section

variable {c : Config} {e n : Bool} {s t u : State}

theorem Effect.off_of_block (h : Effect c (.block e n) s u) : u.off = s.off := by
  cases h <;> rfl

theorem Effect.off_of_gzip (h : Effect c (.gzip e n) s u) : u.off = s.off := by
  cases h <;> rfl

theorem Effect.off_of_bgzf (h : Effect c (.bgzf e n) s u) : u.off = s.off ∨ s.AppendsChunk u := by
  cases h with
  | chunkAppended e n s ch b hs h0 hg hi hb =>
    obtain ⟨hmin, hmax⟩ := compressBlock_length hb
    exact .inr ⟨hs, rfl, Nat.lt_of_sub_ne_zero h0, rfl, Nat.add_le_add_left hmin _, Nat.add_le_add_left hmax _⟩
  | invalid | toChunk | toEof | chunkDenied | chunkFails | noMarker | markerDenied | markerAppended => exact .inl rfl

theorem State.AppendsChunk.of_forgetTemporaries (hu : t.forgetTemporaries = u.forgetTemporaries)
    (h : s.AppendsChunk u) : s.AppendsChunk t := by
  have hview : s.AppendsChunk u.forgetTemporaries := { h with }
  exact { hu ▸ hview with }

end

/-! ### The end of a `BGZF` command (42_bgzf_encoder R90, R93) -/

/-- How a `BGZF` command that should answer `answer` can end: as it should, or on a denied request of at most `limit`
bytes, drawn at `draw` or later. -/
inductive BgzfEnd (c : Config) (draw limit : Nat) (answer : Except (ErrClass × Nat) (List Byte)) (t : State) :
    Prop where
  | done (bytes : List Byte) (ha : answer = .ok bytes) (ht : t.DoneWith bytes)
  | failed (err : ErrClass) (stage : BitVec 3) (off : Nat) (ha : answer = .error (err, off))
      (ht : t.FailedWith err stage off)
  | denied (d n : Nat) (stage : BitVec 3) (off : Nat) (hd : draw ≤ d) (hn : n ≤ limit) (hg : c.grants d n = false)
      (ht : t.FailedWith .resourceExhausted stage off)

theorem BgzfEnd.mono {c : Config} {draw draw' limit limit' : Nat} {answer : Except (ErrClass × Nat) (List Byte)}
    {t : State} (h : BgzfEnd c draw limit answer t) (hdraw : draw' ≤ draw) (hlimit : limit ≤ limit') :
    BgzfEnd c draw' limit' answer t := by
  cases h with
  | done bytes ha ht => exact .done bytes ha ht
  | failed err stage off ha ht => exact .failed err stage off ha ht
  | denied d n stage off hd hn hg ht => exact .denied d n stage off (hdraw.trans hd) (hn.trans hlimit) hg ht

/-- A run stays where a step has ended the command. -/
theorem run_of_ended {c : Config} {s t : State} (k : Nat) (h : stepWith c s = .next t) (htodo : t.hostTodo = [])
    (hb : t.busy = false) : Host.Core.run (coreWith c) (k + 1) s = .next t :=
  (run_succ k h).trans (run_waits k htodo hb)

theorem State.FailedWith.busy {s : State} {err : ErrClass} {stage : BitVec 3} {off : Nat}
    (h : s.FailedWith err stage off) : s.busy = false :=
  (State.busy_eq_false_iff s).mpr (.inr (.inr h.seq))

/-! ### The output while a command runs (20_memory R34) -/

/-- `bytes` is what has been appended so far, and no failure is recorded. -/
structure State.HasOutput (s : State) (bytes : List Byte) : Prop where
  outWf : s.out.wf
  outLen : s.outLen = bytes.length
  out : s.out.slice 0 s.outLen = some bytes
  err : s.err = .none
  stage : s.stage = 0#3
  errOffset : s.errOffset = 0

/-- 20_memory R33, R34: bytes written behind a slice prolong it. -/
theorem Memory.slice_write_append {m : Memory} (hm : m.wf) {n : Nat} {bs : List Byte} (h : m.slice 0 n = some bs)
    (b : List Byte) : (m.write n b).slice 0 (n + b.length) = some (bs ++ b) := by
  obtain ⟨hlen, hread⟩ := (Memory.slice_eq_some m 0 n bs hm).mp h
  refine (Memory.slice_eq_some _ _ _ _ (Memory.wf_write m n b hm)).mpr ⟨by rw [List.length_append, hlen], ?_⟩
  intro i hi
  rw [Nat.zero_add]
  by_cases hlow : i < n
  · rw [Memory.read_write_outside m n b i (.inl hlow), List.getElem?_append_left (hlen ▸ hlow), ← hread i hlow,
      Nat.zero_add]
  · have hn : n ≤ i := Nat.not_lt.mp hlow
    rw [Memory.read_write, if_pos ⟨hn, hi⟩, List.getElem?_append_right (hlen ▸ hn), hlen]

theorem State.HasOutput.append {s : State} {bytes : List Byte} (h : s.HasOutput bytes) (b : List Byte) :
    (s.append b).HasOutput (bytes ++ b) where
  outWf := Memory.wf_write s.out s.outLen b h.outWf
  outLen := by simp [h.outLen]
  out := Memory.slice_write_append h.outWf h.out b
  err := h.err
  stage := h.stage
  errOffset := h.errOffset

theorem State.HasOutput.doneWith {s : State} {bytes : List Byte} (h : s.HasOutput bytes) (hs : s.seq = .done) :
    s.DoneWith bytes :=
  { h with seq := hs }

/-! ### The step of `S_EOF` (42_bgzf_encoder R88) -/

/-- `S_EOF` ends the command, with the marker appended if it is requested and granted. -/
theorem State.HasOutput.stepEof_end {s : State} {bytes : List Byte} (h : s.HasOutput bytes) (c : Config) (e : Bool) :
    ∃ t, stepEof c e s = .next t ∧ BgzfEnd c s.draws (bytes.length + 28) (.ok (bytes ++ markerBytes e)) t := by
  obtain ⟨rfl, ht⟩ | ⟨rfl, ⟨hg, ht⟩ | ⟨hg, ht⟩⟩ := stepEof_cases c e s
  · have hdone : ({ s with seq := .done } : State).HasOutput bytes := { h with }
    exact ⟨_, ht, .done bytes (by simp [markerBytes]) (hdone.doneWith rfl)⟩
  · exact ⟨_, ht, .denied s.draws _ _ s.off (Nat.le_refl _) (h.outLen ▸ Nat.le_refl _) hg
      (State.failedWith_failedAt ..)⟩
  · exact ⟨_, ht, .done _ rfl { h.append eofMarker with seq := rfl }⟩

/-! ### The chunk loop (42_bgzf_encoder R84 to R90) -/

/-- What is left of an encoding when the bytes `done` stand for the first `k` chunks and the input `R` remains. -/
def encodingFrom (c : Config) (l : Int) (e : Bool) (k : Nat) (R done : List Byte) :
    Except (ErrClass × Nat) (List Byte) :=
  match encodeChunks c l k (chunks R) with
  | .error j => .error (.compressFailed, 65280 * j)
  | .ok bs => .ok (done ++ (bs ++ markerBytes e))

section

variable {c : Config} {l : Int} {e : Bool} {k : Nat} {R done : List Byte}

theorem encodingFrom_nil : encodingFrom c l e k [] done = .ok (done ++ markerBytes e) := rfl

theorem encodingFrom_of_none (hR : R ≠ []) (hb : compressBlock c (R.take 65280) l 65536 = none) :
    encodingFrom c l e k R done = .error (.compressFailed, 65280 * k) := by
  rw [encodingFrom, chunks_of_ne_nil hR, encodeChunks_cons_of_none hb]

theorem encodingFrom_of_some (hR : R ≠ []) {b : List Byte} (hb : compressBlock c (R.take 65280) l 65536 = some b) :
    encodingFrom c l e k R done = encodingFrom c l e (k + 1) (R.drop 65280) (done ++ b) := by
  rw [encodingFrom, encodingFrom, chunks_of_ne_nil hR, encodeChunks_cons_of_some hb]
  cases encodeChunks c l (k + 1) (chunks (R.drop 65280)) with
  | error j => rfl
  | ok bs => simp [Except.map]

theorem bgzfEncode_eq_encodingFrom {S : List Byte} (hl : levelLegal l = true) :
    bgzfEncode c S l e = encodingFrom c l e 0 S [] := by
  rw [encodingFrom]
  cases hbs : encodeChunks c l 0 (chunks S) with
  | error k => rw [bgzfEncode_of_error hl hbs]
  | ok bs => exact bgzfEncode_of_ok hl hbs e

end

/-- The state of a `BGZF` command at level `l` in `S_CHUNK`, when `done` is the output of the first `k` chunks and the
input `R` is left. -/
structure State.Chunking (s : State) (l : Int) (e : Bool) (k : Nat) (R done : List Byte) : Prop where
  seq : s.seq = .chunk
  word : s.cmdL = encode (.bgzf e false)
  level : s.levelL = l
  hostTodo : s.hostTodo = []
  inputWf : s.input.wf
  input : s.input.slice s.off R.length = some R
  left : s.nL - s.off = R.length
  off : R ≠ [] → s.off = 65280 * k
  output : s.HasOutput done

theorem State.Chunking.of_forgetTemporaries {s t : State} {l : Int} {e : Bool} {k : Nat} {R done : List Byte}
    (hf : t.forgetTemporaries = s.forgetTemporaries) (h : s.Chunking l e k R done) : t.Chunking l e k R done := by
  have hview : s.forgetTemporaries.Chunking l e k R done := { h with output := { h.output with } }
  have ht : t.forgetTemporaries.Chunking l e k R done := hf ▸ hview
  exact { ht with output := { ht.output with } }

section

variable {c : Config} {s : State} {l : Int} {e : Bool} {k : Nat} {R done : List Byte}
  (h : s.Chunking l e k R done)

include h

theorem State.Chunking.stepWith_eq : stepWith c s = stepChunk c s := stepWith_of_chunk h.hostTodo h.seq h.word

theorem State.Chunking.chunkSize_eq : s.chunkSize = min R.length 65280 := by
  rw [State.chunkSize_eq, h.left]

/-- The chunk in hand is the first of the input left. -/
theorem State.Chunking.slice_chunk : s.input.slice s.off s.chunkSize = some (R.take 65280) := by
  have hslice := Memory.slice_sub h.inputWf h.input 0 s.chunkSize (by rw [h.chunkSize_eq]; omega)
  have htake : R.take s.chunkSize = R.take 65280 := by
    rw [h.chunkSize_eq, Nat.min_comm, ← List.take_eq_take_min]
  rwa [Nat.add_zero, List.drop_zero, htake] at hslice

/-- What is left behind the chunk in hand. -/
theorem State.Chunking.slice_rest :
    s.input.slice (s.off + s.chunkSize) (R.drop 65280).length = some (R.drop 65280) := by
  have hsize := h.chunkSize_eq
  by_cases hshort : R.length ≤ 65280
  · rw [List.drop_of_length_le hshort, List.length_nil, Memory.slice_zero]
  · rw [show s.chunkSize = 65280 by omega]
    have hslice := Memory.slice_sub h.inputWf h.input 65280 (R.drop 65280).length (by rw [List.length_drop]; omega)
    rwa [List.take_length] at hslice

/-- An appended block leads to the loop's next turn. -/
theorem State.Chunking.chunkAppended (hR : R ≠ []) (b : List Byte) :
    (s.chunkAppended b).Chunking l e (k + 1) (R.drop 65280) (done ++ b) where
  seq := h.seq
  word := h.word
  level := h.level
  hostTodo := h.hostTodo
  inputWf := h.inputWf
  input := h.slice_rest
  left := by
    have hleft := h.left
    have hsize := h.chunkSize_eq
    show s.nL - (s.off + s.chunkSize) = _
    rw [List.length_drop]
    omega
  off hrest := by
    have hoff := h.off hR
    have hsize := h.chunkSize_eq
    have hlong : 0 < (R.drop 65280).length := List.length_pos_iff.mpr hrest
    rw [List.length_drop] at hlong
    show s.off + s.chunkSize = _
    omega
  output := { h.output.append b with }

theorem State.Chunking.nothing_left_run (hR : R = []) :
    ∃ t, Host.Core.run (coreWith c) 2 s = .next t ∧
      BgzfEnd c s.draws (done.length + 28) (.ok (done ++ markerBytes e)) t := by
  have hchunk : stepWith c s = .next { s with seq := .eof } :=
    h.stepWith_eq.trans (stepChunk_of_nothing_left (by rw [h.left, hR, List.length_nil]))
  have heof : stepWith c { s with seq := .eof } = stepEof c e { s with seq := .eof } :=
    stepWith_of_eof h.hostTodo rfl h.word
  have hout : ({ s with seq := .eof } : State).HasOutput done := { h.output with }
  obtain ⟨t, ht, hend⟩ := hout.stepEof_end c e
  exact ⟨t, (run_succ 1 hchunk).trans ((run_one c _).trans (heof.trans ht)), hend⟩

/-- A chunk step ends the command or appends a block and goes on. -/
theorem State.Chunking.chunk_step (hR : R ≠ []) :
    (∃ t, stepWith c s = .next t ∧ t.hostTodo = [] ∧ t.busy = false ∧
      BgzfEnd c s.draws (done.length + 65536) (encodingFrom c l e k R done) t) ∨
    ∃ b t, stepWith c s = .next t ∧ compressBlock c (R.take 65280) l 65536 = some b ∧ t.draws = s.draws + 1 ∧
      t.Chunking l e (k + 1) (R.drop 65280) (done ++ b) := by
  have hleft : s.nL - s.off ≠ 0 := h.left ▸ (List.length_pos_iff.mpr hR).ne'
  rw [h.stepWith_eq]
  cases hg : c.grants s.draws (s.outLen + 65536) with
  | false =>
    exact .inl ⟨_, stepChunk_of_denied hleft hg, h.hostTodo, rfl,
      .denied s.draws _ _ _ (Nat.le_refl _) (h.output.outLen ▸ Nat.le_refl _) hg (State.failedWith_failedAt ..)⟩
  | true =>
    obtain ⟨hb, t, ht, hf⟩ | ⟨b, hb, t, ht, hf⟩ := stepChunk_of_granted h.seq hleft hg h.slice_chunk
    · have hfail : t.FailedWith .compressFailed 2#3 s.off := .of_forgetTemporaries hf (State.failedWith_failedAt ..)
      have htodo : t.hostTodo = [] := (congrArg State.hostTodo hf).trans h.hostTodo
      have hans : encodingFrom c l e k R done = .error (.compressFailed, s.off) := by
        rw [encodingFrom_of_none hR (h.level ▸ hb), h.off hR]
      exact .inl ⟨t, ht, htodo, hfail.busy, .failed _ _ _ hans hfail⟩
    · exact .inr ⟨b, t, ht, h.level ▸ hb, congrArg State.draws hf, .of_forgetTemporaries hf (h.chunkAppended hR b)⟩

end

/-- The chunk loop computes the rest of the encoding. -/
theorem State.Chunking.run {c : Config} {l : Int} {e : Bool} {R : List Byte} {k : Nat} {done : List Byte} {s : State}
    (h : s.Chunking l e k R done) :
    ∃ t, Host.Core.run (coreWith c) (chunkCount R.length + 2) s = .next t ∧
      BgzfEnd c s.draws (done.length + 65536 * chunkCount R.length + 28) (encodingFrom c l e k R done) t := by
  induction R using chunkInduction generalizing k done s with
  | nil => exact h.nothing_left_run rfl
  | cons R hR ih =>
    have hcount := chunkCount_of_ne_nil hR
    obtain ⟨t, ht, htodo, hb, hend⟩ | ⟨b, t, ht, hb, hdraws, hnext⟩ := h.chunk_step (c := c) hR
    · exact ⟨t, run_of_ended _ ht htodo hb, hend.mono (Nat.le_refl _) (by omega)⟩
    · obtain ⟨t', hrun, hend⟩ := ih hnext
      refine ⟨t', ?_, ?_⟩
      · rw [hcount, Nat.add_right_comm, run_succ _ ht, hrun]
      · have hblock := (compressBlock_length hb).2
        rw [encodingFrom_of_some hR hb]
        exact hend.mono (by omega) (by rw [List.length_append]; omega)

/-! ### The whole command (42_bgzf_encoder R82, R90; 70_reset_and_hazards R139) -/

section

variable {c : Config} {e : Bool} {s : State} {S : List Byte}

/-- 42_bgzf_encoder R82: a legal level dispatches a `BGZF` command. -/
theorem execWith_bgzf_of_validate (hs : s.seq = .validate) (hl : levelLegal s.levelL = true) :
    execWith c (.bgzf e false) s = .next { s with seq := .chunk } := by
  rw [execWith, execBgzfWith, hs]
  exact congrArg Host.Outcome.next (if_pos hl)

theorem execWith_bgzf_of_illegal (hs : s.seq = .validate) (hl : levelLegal s.levelL = false) :
    execWith c (.bgzf e false) s = .next (s.failedAt .invalidArgument 1#3 0) := by
  rw [execWith, execBgzfWith, hs, ← State.failWith_validate hs]
  exact congrArg Host.Outcome.next (if_neg (Bool.eq_false_iff.mp hl))

theorem State.StartedWith.chunking (h : s.StartedWith (.bgzf e false) S) (hwf : s.input.wf) :
    ({ s with seq := .chunk } : State).Chunking s.levelL e 0 S [] where
  seq := rfl
  word := h.word
  level := rfl
  hostTodo := h.hostTodo
  inputWf := hwf
  input := h.off ▸ h.input
  left := by rw [h.off, h.length, Nat.sub_zero]
  off _ := h.off
  output :=
    { outWf := h.out ▸ Memory.wf_nil
      outLen := h.outLen
      out := by rw [h.outLen, Memory.slice_zero]
      err := h.err
      stage := h.stage
      errOffset := h.errOffset }

/-- Whatever the allocator answers, a `BGZF` command ends within `K + 3` steps as `bgzf_encode` says, or on a denied
request. -/
theorem State.StartedWith.run_bgzf (h : s.StartedWith (.bgzf e false) S) (hwf : s.input.wf) :
    ∃ t, Host.Core.run (coreWith c) (chunkCount S.length + 3) s = .next t ∧
      BgzfEnd c s.draws (65536 * chunkCount S.length + 28) (bgzfEncode c S s.levelL e) t := by
  have hstep : stepWith c s = execWith c (.bgzf e false) s :=
    stepWith_of_encode h.hostTodo (by rw [State.busy, h.seq]; rfl) h.word
  cases hl : levelLegal s.levelL with
  | false =>
    have hfails := hstep.trans (execWith_bgzf_of_illegal h.seq hl)
    exact ⟨_, run_of_ended _ hfails h.hostTodo rfl,
      .failed _ _ _ (bgzfEncode_of_illegal hl e) (State.failedWith_failedAt ..)⟩
  | true =>
    have hstarts := hstep.trans (execWith_bgzf_of_validate h.seq hl)
    obtain ⟨t, hrun, hend⟩ := (h.chunking hwf).run (c := c)
    refine ⟨t, (run_succ _ hstarts).trans hrun, ?_⟩
    rw [bgzfEncode_eq_encodingFrom hl]
    exact hend.mono (Nat.le_refl _) (by rw [List.length_nil, Nat.zero_add])

end

/-- 40_collaborator_ports R68: with every request granted, none is denied that fits a register. -/
theorem grants_of_grantsFrom {c : Config} {draw d n : Nat} (h : c.GrantsFrom draw) (hd : draw ≤ d)
    (hn : n < 2 ^ c.lenBits) : c.grants d n = true := by
  have hg := h (d - draw) n hn
  rwa [Nat.add_sub_cancel' hd] at hg

end Sys2Proof.Machine

namespace Sys2Proof.Proofs.Bgzf

open Sys2Proof.Machine

/-- Settles O19: the request, then `compress_block`, decide the chunk step. -/
theorem chunkStepAppendsOneBlockOrFails : Obligations.ChunkStepAppendsOneBlockOrFails := by
  intro e n s ch hs hleft hi
  have hexec : exec (.bgzf e n) s = stepChunk Config.hw s := execBgzfWith_of_chunk hs
  have hlen : ∀ (c : Config) (r : List Byte), compressBlock c ch (sint32 s.lvlL) 65536 = some r →
      27 ≤ r.length ∧ r.length ≤ 65536 := fun _ _ => compressBlock_length
  rw [hexec]
  cases hg : Config.hw.grants s.draws (s.outLen + 65536) with
  | false => exact ⟨_, stepChunk_of_denied hleft.ne' hg, by rw [hs]; rfl, hlen⟩
  | true =>
    obtain ⟨hb, t, ht, hf⟩ | ⟨b, hb, t, ht, hf⟩ := stepChunk_of_granted hs hleft.ne' hg hi
    all_goals
      rw [State.levelL_eq] at hb
      refine ⟨t, ht, ?_, hlen⟩
      rw [if_pos rfl, hb, hf]
      rfl

/-- Settles O31: of the effects of a step only the appended chunk moves `OFF`. -/
theorem offsetMovesOnlyWithAnAppendedChunk : Obligations.OffsetMovesOnlyWithAnAppendedChunk := by
  refine fun e n s t => ⟨fun h => ?_, fun h => ?_, fun h => ?_⟩ <;> obtain ⟨u, hu, heff⟩ := exec_effect h
  · exact (congrArg State.off hu).trans heff.off_of_block
  · exact (congrArg State.off hu).trans heff.off_of_gzip
  · obtain hoff | happ := heff.off_of_bgzf
    · exact .inl ((congrArg State.off hu).trans hoff)
    · obtain ⟨hs, ht, hleft, hoff, hmin, hmax⟩ := State.AppendsChunk.of_forgetTemporaries hu happ
      exact .inr ⟨hs, ht, hleft, hoff, hmin, hmax⟩

/-- Settles O50: no request of the command is denied, so it ends as `bgzf_encode` says. -/
theorem bgzfCommandComputesItsEncoding : Obligations.BgzfCommandComputesItsEncoding := by
  intro c s e S h hwf hgrants hfits
  obtain ⟨t, hrun, hend⟩ := h.run_bgzf (c := c) hwf
  rw [State.levelL_eq] at hend
  refine ⟨t, hrun, ?_⟩
  cases hend with
  | done bytes ha ht => rw [ha]; exact ht
  | failed err stage off ha ht => rw [ha]; exact ⟨stage, ht⟩
  | denied d n stage off hd hn hg _ =>
    have hgranted : c.grants d n = true := grants_of_grantsFrom hgrants hd (by omega)
    cases hg.symm.trans hgranted

/-- Settles O51: the three ends of the command. -/
theorem bgzfCommandAlwaysEnds : Obligations.BgzfCommandAlwaysEnds := by
  intro c s e S h hwf
  obtain ⟨t, hrun, hend⟩ := h.run_bgzf (c := c) hwf
  refine ⟨t, hrun, ?_⟩
  cases hend with
  | done bytes ha ht => exact .inl ⟨bytes, ha, ht⟩
  | failed err stage off _ ht => exact .inr ⟨err, stage, off, ht⟩
  | denied d n stage off _ _ _ ht => exact .inr ⟨.resourceExhausted, stage, off, ht⟩

/-- Settles O55: chunk `k` by its place, the partition by taking the chunks off the front. -/
theorem chunksPartitionTheInput : Obligations.ChunksPartitionTheInput := by
  refine fun S => ⟨chunks_flatten S, chunks_length S, fun k hk => ?_, fun ch hch => ?_⟩
  · rw [chunks_getElem? (chunks_length S ▸ hk), Option.getD_some, chunkAt_length]
  · exact List.ne_nil_of_length_pos (length_of_mem_chunks hch).1

/-- Settles O56: each block has 27 to 65536 bytes, and the marker 28. -/
theorem encodingLengthIsBounded : Obligations.EncodingLengthIsBounded := by
  intro c S bytes l e h
  obtain ⟨bs, hbs, rfl⟩ := bgzfEncode_eq_ok h
  have hlen := encodeChunks_length hbs
  rw [chunks_length] at hlen
  rw [List.length_append, markerBytes_length]
  omega

/-- Settles O57: the bit `EOF` has no part in the chunks' blocks. -/
theorem eofMarkerIsOnlyAppended : Obligations.EofMarkerIsOnlyAppended := by
  refine fun c S l => ⟨bgzfEncode_true_eq_map, fun hl => ?_, fun hl => ?_⟩
  · exact ⟨bgzfEncode_nil ((levelLegal_iff l).mpr hl) false, bgzfEncode_nil ((levelLegal_iff l).mpr hl) true⟩
  · exact bgzfEncode_of_illegal (Bool.eq_false_iff.mpr fun h => hl ((levelLegal_iff l).mp h))

/-- Settles O58: the reader takes off block after block, and the chunks are the input. -/
theorem encodingReadsBackToTheInput : Obligations.EncodingReadsBackToTheInput := by
  refine ⟨fun c inflate S bytes l hsound h => ?_, fun c S l e hfits hl => ?_⟩
  · obtain ⟨bs, hbs, rfl⟩ := bgzfEncode_eq_ok h
    have hread := readBlocks_encodeChunks hsound
      (fun ch hch => List.ne_nil_of_length_pos (length_of_mem_chunks hch).1) hbs
    rw [chunks_length, chunks_flatten] at hread
    simpa [markerBytes] using hread
  · obtain ⟨bs, hbs⟩ := exists_encodeChunks_of_deflateFits hfits hl 0 fun ch => length_of_mem_chunks (S := S)
    exact ⟨_, bgzfEncode_of_ok hl hbs e⟩

/-- Settles O21: the chunk step with nothing left. -/
theorem chunkLoopIsLeftWhenNothingRemains : Obligations.ChunkLoopIsLeftWhenNothingRemains :=
  fun _ _ _ hs h0 => (execBgzfWith_of_chunk hs).trans (stepChunk_of_nothing_left h0)

/-- Settles O22: the three cases of the step of `S_EOF`, whose code is 3; the 28 bytes are the marker. -/
theorem eofStepAppendsTheMarkerWhenRequested : Obligations.EofStepAppendsTheMarkerWhenRequested := by
  intro e n s hs
  have hexec : exec (.bgzf e n) s = stepEof Config.hw e s := execBgzfWith_of_eof hs
  rw [hexec]
  obtain ⟨rfl, h⟩ | ⟨rfl, ⟨hg, h⟩ | ⟨hg, h⟩⟩ := stepEof_cases Config.hw e s <;> rw [h]
  · rfl
  · rw [hg, State.failWith_eq_failedAt, State.drawn_seq, hs]
    rfl
  · rw [hg]
    rfl

end Sys2Proof.Proofs.Bgzf

/-! The plain gzip encoder's statements (43_gzip_encoder): the step of `S_GZIP` (O23, O24, O25), the whole `GZIP`
command (O52), and what its output decodes to (O54). -/

namespace Sys2Proof.Machine

/-! ### The step of `S_GZIP` (43_gzip_encoder R96, R97) -/

/-- The state to which the answer of `GZIPSTREAM` leads, once the request is granted (43_gzip_encoder R96, R97). -/
def State.gzipAnswered (s : State) : Option (List Byte) → State
  | none => s.drawn.failedAt .compressFailed 5#3 0
  | some g =>
    { s with
      outCap := s.nL + 26
      out := s.out.write s.outLen g
      outLen := s.outLen + g.length
      draws := s.draws + 1
      seq := .done }

section

variable {c : Config} {e n : Bool} {s : State}

/-- In `S_GZIP` the step of `GZIP` is the gzip step (43_gzip_encoder R94). -/
theorem execWith_gzip_of_gzip (hs : s.seq = .gzip) : execWith c (.gzip e n) s = stepGzip c s := by
  rw [execWith, execGzipWith, hs]

/-- The request comes before the input and the compressor, so its denial alone decides the step. -/
theorem execWith_gzip_of_denied (hs : s.seq = .gzip) (hdenied : c.grants s.draws (s.nL + 26) = false) :
    execWith c (.gzip e n) s = .next (s.drawn.failedAt .resourceExhausted 5#3 0) := by
  rw [execWith_gzip_of_gzip hs]
  obtain ⟨-, hstep⟩ | ⟨hgrant, -⟩ := stepGzip_cases c s
  · rw [hstep, State.failWith_eq_failedAt, State.drawn_seq, hs]
    rfl
  · cases hdenied.symm.trans hgrant

/-- With the request granted and the input there, `GZIPSTREAM` decides the step. -/
theorem execWith_gzip_of_granted {i : List Byte} (hs : s.seq = .gzip) (hi : s.input.slice 0 s.nL = some i)
    (hgrant : c.grants s.draws (s.nL + 26) = true) :
    execWith c (.gzip e n) s = .next (s.gzipAnswered (c.gzipStream i s.levelL (s.nL + 26))) := by
  rw [execWith_gzip_of_gzip hs]
  obtain ⟨hdenied, -⟩ | ⟨-, ⟨hnone, -⟩ | ⟨i', hi', ⟨hz, hstep⟩ | ⟨g, hz, hstep⟩⟩⟩ := stepGzip_cases c s
  · cases hdenied.symm.trans hgrant
  · cases hnone.symm.trans hi
  · cases hi'.symm.trans hi
    rw [hstep, hz, State.failWith_eq_failedAt, State.drawn_seq, hs]
    rfl
  · cases hi'.symm.trans hi
    rw [hstep, hz]
    rfl

/-! ### The validation of `GZIP` (43_gzip_encoder R95) -/

theorem execWith_gzip_of_validate (hs : s.seq = .validate) (hl : levelLegal s.levelL = true) :
    execWith c (.gzip e false) s = .next { s with seq := .gzip } := by
  rw [execWith, execGzipWith, hs]
  exact congrArg Host.Outcome.next (if_pos hl)

theorem execWith_gzip_of_illegal (hs : s.seq = .validate) (hl : levelLegal s.levelL = false) :
    execWith c (.gzip e false) s = .next (s.failedAt .invalidArgument 1#3 0) := by
  rw [execWith, execGzipWith, hs, ← State.failWith_validate hs]
  exact congrArg Host.Outcome.next (if_neg (Bool.eq_false_iff.mp hl))

end

/-! ### The function `gzip_encode` (43_gzip_encoder R98) -/

section

variable {c : Config} {S : List Byte} {l : Int}

theorem gzipEncode_of_illegal (hl : levelLegal l = false) : gzipEncode c S l = .error .invalidArgument :=
  if_neg (Bool.eq_false_iff.mp hl)

theorem gzipEncode_of_none (hl : levelLegal l = true) (hz : c.gzipStream S l (S.length + 26) = none) :
    gzipEncode c S l = .error .compressFailed := by
  rw [gzipEncode, if_pos hl, hz]

theorem gzipEncode_of_some {g : List Byte} (hl : levelLegal l = true)
    (hz : c.gzipStream S l (S.length + 26) = some g) : gzipEncode c S l = .ok g := by
  rw [gzipEncode, if_pos hl, hz]

end

/-! ### The whole command (43_gzip_encoder R95 to R98; 70_reset_and_hazards R139) -/

/-- How a `GZIP` command started in `s` on the input `S` can end. -/
inductive GzipEnd (c : Config) (s : State) (S : List Byte) (t : State) : Prop where
  | illegal (hl : levelLegal s.levelL = false) (ht : t.FailedWith .invalidArgument 1#3 0)
  | denied (hl : levelLegal s.levelL = true) (hg : c.grants s.draws (S.length + 26) = false)
      (ht : t.FailedWith .resourceExhausted 5#3 0)
  | unanswered (hl : levelLegal s.levelL = true) (hg : c.grants s.draws (S.length + 26) = true)
      (hz : c.gzipStream S s.levelL (S.length + 26) = none) (ht : t.FailedWith .compressFailed 5#3 0)
  | answered (g : List Byte) (hl : levelLegal s.levelL = true) (hg : c.grants s.draws (S.length + 26) = true)
      (hz : c.gzipStream S s.levelL (S.length + 26) = some g) (ht : t.DoneWith g)

/-- A command just started has appended nothing. -/
theorem State.StartedWith.hasOutput_nil {i : Instr} {s : State} {S : List Byte} (h : s.StartedWith i S) :
    s.HasOutput [] where
  outWf := h.out ▸ Memory.wf_nil
  outLen := h.outLen
  out := by rw [h.outLen, Memory.slice_zero]
  err := h.err
  stage := h.stage
  errOffset := h.errOffset

section

variable {c : Config} {e : Bool} {s : State} {S : List Byte} (h : s.StartedWith (.gzip e false) S)

include h

theorem State.StartedWith.stepWith_gzip : stepWith c s = execWith c (.gzip e false) s :=
  stepWith_of_encode h.hostTodo (by rw [State.busy, h.seq]; rfl) h.word

theorem State.StartedWith.doneWith_gzipAnswered (g : List Byte) :
    (({ s with seq := .gzip } : State).gzipAnswered (some g)).DoneWith g where
  __ := h.hasOutput_nil.append g
  seq := rfl

/-- At a legal level the second step of a `GZIP` command is the step of `S_GZIP`. -/
theorem State.StartedWith.run_gzip_legal (hl : levelLegal s.levelL = true) :
    Host.Core.run (coreWith c) 2 s = execWith c (.gzip e false) { s with seq := .gzip } := by
  have hstep : stepWith c s = .next { s with seq := .gzip } :=
    h.stepWith_gzip.trans (execWith_gzip_of_validate h.seq hl)
  rw [run_succ 1 hstep, run_one]
  exact stepWith_of_encode h.hostTodo rfl h.word

theorem State.StartedWith.run_gzip_illegal (hl : levelLegal s.levelL = false) :
    Host.Core.run (coreWith c) 2 s = .next (s.failedAt .invalidArgument 1#3 0) :=
  run_of_ended 1 (h.stepWith_gzip.trans (execWith_gzip_of_illegal h.seq hl)) h.hostTodo rfl

theorem State.StartedWith.run_gzip_denied (hl : levelLegal s.levelL = true)
    (hdenied : c.grants s.draws (S.length + 26) = false) :
    Host.Core.run (coreWith c) 2 s =
      .next (({ s with seq := .gzip } : State).drawn.failedAt .resourceExhausted 5#3 0) := by
  rw [h.run_gzip_legal hl]
  exact execWith_gzip_of_denied rfl (h.length ▸ hdenied)

/-- The whole input goes to one call (43_gzip_encoder R96). -/
theorem State.StartedWith.run_gzip_granted (hl : levelLegal s.levelL = true)
    (hgrant : c.grants s.draws (S.length + 26) = true) :
    Host.Core.run (coreWith c) 2 s =
      .next (({ s with seq := .gzip } : State).gzipAnswered (c.gzipStream S s.levelL (S.length + 26))) := by
  rw [h.run_gzip_legal hl]
  rw [← h.length] at hgrant ⊢
  exact execWith_gzip_of_granted rfl (h.length ▸ h.input) hgrant

/-- A `GZIP` command ends within two steps: on its level, its request, or the compressor's answer. -/
theorem State.StartedWith.run_gzip : ∃ t, Host.Core.run (coreWith c) 2 s = .next t ∧ GzipEnd c s S t := by
  cases hl : levelLegal s.levelL with
  | false => exact ⟨_, h.run_gzip_illegal hl, .illegal hl (State.failedWith_failedAt ..)⟩
  | true =>
    cases hg : c.grants s.draws (S.length + 26) with
    | false => exact ⟨_, h.run_gzip_denied hl hg, .denied hl hg (State.failedWith_failedAt ..)⟩
    | true =>
      refine ⟨_, h.run_gzip_granted hl hg, ?_⟩
      cases hz : c.gzipStream S s.levelL (S.length + 26) with
      | none => exact .unanswered hl hg hz (State.failedWith_failedAt ..)
      | some g => exact .answered g hl hg hz (h.doneWith_gzipAnswered g)

end

end Sys2Proof.Machine

namespace Sys2Proof.Proofs.Gzip

open Sys2Proof.Machine

/-- Settles O52: `gzip_encode` answers as the command ends, once the request is granted. -/
theorem gzipCommandComputesItsEncoding : Obligations.GzipCommandComputesItsEncoding := by
  intro c s e S h _
  obtain ⟨t, hrun, hend⟩ := h.run_gzip (c := c)
  refine ⟨t, hrun, ?_⟩
  rw [← State.levelL_eq]
  cases hend with
  | illegal hl ht => rw [gzipEncode_of_illegal hl]; exact ht
  | denied hl hg ht =>
    cases hz : c.gzipStream S s.levelL (S.length + 26) with
    | none => rw [gzipEncode_of_none hl hz, hg]; exact ht
    | some g => rw [gzipEncode_of_some hl hz, hg]; exact ht
  | unanswered hl hg hz ht => rw [gzipEncode_of_none hl hz, hg]; exact ht
  | answered g hl hg hz ht => rw [gzipEncode_of_some hl hz, hg]; exact ht

/-- Settles O54: only an answer of the compressor ends in `S_DONE`, and both the contract and `GZIP_SOUND` speak of
it. -/
theorem gzipOutputDecodesToTheInput : Obligations.GzipOutputDecodesToTheInput := by
  intro c gunzip s t e S hsound h _ hrun hdone
  obtain ⟨u, hu, hend⟩ := h.run_gzip (c := c)
  cases hu.symm.trans hrun
  cases hend with
  | answered g _ _ hz ht =>
    obtain ⟨hmin, hmax⟩ := Config.gzipStream_contract hz
    exact ⟨g, ht.out, hmin, hmax, hsound _ _ _ _ hz⟩
  | illegal _ ht | denied _ _ ht | unanswered _ _ _ ht => cases hdone.symm.trans ht.seq

/-- Settles O23: the request, then `GZIPSTREAM`, decide the step of `S_GZIP`. -/
theorem gzipStepAppendsTheStreamOrFails : Obligations.GzipStepAppendsTheStreamOrFails := by
  intro e n s i hs hi
  refine ⟨?_, fun c g => Config.gzipStream_contract⟩
  rw [exec_eq_execWith]
  cases hg : Config.hw.grants s.draws (s.nL + 26) with
  | false => exact execWith_gzip_of_denied hs hg
  | true =>
    rw [execWith_gzip_of_granted hs hi hg, State.levelL_eq, if_pos rfl]
    cases Config.hw.gzipStream i (sint32 s.lvlL) (s.nL + 26) <;> rfl

/-- Settles O24: the allocator denies a size that fits no register, before the input is looked at. -/
theorem gzipOfUnreservableSizeIsDenied : Obligations.GzipOfUnreservableSizeIsDenied := by
  intro e n s hs hsize
  rw [exec_eq_execWith]
  exact execWith_gzip_of_denied hs (Config.grants_eq_false_of_le hsize)

/-- Settles O25: the granted step with the answer `g`. -/
theorem gzipCompletesWhenAnswered : Obligations.GzipCompletesWhenAnswered := by
  refine ⟨fun c e n s i g hs hi hgrant hz => ?_, exec_eq_execWith⟩
  rw [execWith_gzip_of_granted hs hi hgrant, State.levelL_eq, hz]
  rfl

end Sys2Proof.Proofs.Gzip

/-! The host commands' statements (44_host_commands): the validation of a command (O10), START (O33), the doorbell while
busy (O35), register writes and reads (O36, O37), and the two pseudo-commands (O59, O60). -/

namespace Sys2Proof.Machine

/-! ### The host's lines (44_host_commands R109, R110; log 1) -/

section

variable {c : Config} {run : Instr → State → Host.Outcome State Fault Refusal} {s : State} {rest : List HostLine}

theorem turn_of_input {bytes : List Byte} (h : s.hostTodo = .input bytes :: rest) :
    turn c run s = hostInput bytes { s with hostTodo := rest } := by
  rw [turn, h]

theorem turn_of_write {index value : Nat} (h : s.hostTodo = .write index value :: rest) :
    turn c run s = hostWrite c index value { s with hostTodo := rest } := by
  rw [turn, h]

theorem turn_of_read {index : Nat} (h : s.hostTodo = .read index :: rest) :
    turn c run s = .next (hostRead c index { s with hostTodo := rest }) := by
  rw [turn, h]

theorem turn_of_takeResult (h : s.hostTodo = .takeResult :: rest) :
    turn c run s = .next (hostTakeResult c { s with hostTodo := rest }) := by
  rw [turn, h]

end

/-! ### Register writes (44_host_commands R101 to R103) -/

section

variable (c : Config) (s : State)

/-- Index 0 is the doorbell, and every word fits it. -/
theorem hostWrite_cmd (w : Word) : hostWrite c 0 w.toNat s = hostDoorbell w s := by
  rw [hostWrite, if_pos w.isLt, BitVec.ofNat_toNat, BitVec.setWidth_eq]

theorem hostWrite_level (w : Word) : hostWrite c 1 w.toNat s = .next { s with level := w } := by
  rw [hostWrite, if_pos w.isLt, BitVec.ofNat_toNat, BitVec.setWidth_eq]

theorem hostWrite_inLen {v : Nat} (hv : v < 2 ^ c.lenBits) : hostWrite c 2 v s = .next { s with inLen := v } := by
  rw [hostWrite, if_pos hv]

theorem hostWrite_cap {v : Nat} (hv : v < 2 ^ c.lenBits) : hostWrite c 3 v s = .next { s with cap := v } := by
  rw [hostWrite, if_pos hv]

theorem hostWrite_ignored {i : Nat} (hi : 4 ≤ i) (v : Nat) : hostWrite c i v s = .next s := by
  obtain ⟨j, rfl⟩ := Nat.exists_eq_add_of_le' hi
  rfl

variable {s}

theorem hostInput_of_not_busy (hb : s.busy = false) (bytes : List Byte) :
    hostInput bytes s = .next { s with input := Memory.ofBytes 0 bytes } := by
  rw [hostInput, hb, if_neg Bool.false_ne_true]

theorem hostDoorbell_of_busy (hb : s.busy = true) (w : Word) : hostDoorbell w s = .next s := if_pos hb

theorem hostDoorbell_of_supplied (hb : s.busy = false) {w : Word} (hi : s.inputSupplied w = true) :
    hostDoorbell w s = .next (s.start w) := by
  rw [hostDoorbell, hb, if_neg Bool.false_ne_true, if_pos hi]

end

/-! ### Register reads (44_host_commands R100) -/

/-- The number register `index` holds (10_state R16 to R22). -/
def State.register (s : State) : Nat → Nat
  | 0 => s.cmdL.toNat
  | 1 => s.level.toNat
  | 2 => s.inLen
  | 3 => s.cap
  | 4 => s.status.toNat
  | 5 => s.outLen
  | 6 => s.errOffset
  | _ => 0

section

variable (c : Config) {s : State} {i : Nat}

/-- A read returns what the register holds, but for indices 5 and 6 while busy. -/
theorem State.registerValue_of_specified (h : s.busy = false ∨ (i ≠ 5 ∧ i ≠ 6)) :
    s.registerValue c i = s.register i := by
  have hspec : s.readUnspecified i = false := by
    obtain hb | ⟨h5, h6⟩ := h
    · simp [State.readUnspecified, hb]
    · simp [State.readUnspecified, h5, h6]
  exact if_neg (Bool.eq_false_iff.mp hspec)

/-- The other reads return a free value of the register's width (log 16). -/
theorem State.registerValue_lt_of_unspecified (hi : i = 5 ∨ i = 6) (hb : s.busy = true) :
    s.registerValue c i < 2 ^ c.lenBits := by
  have hfree : s.readUnspecified i = true := by simpa [State.readUnspecified, hb] using hi
  have hvalue : s.registerValue c i = c.freeRegister s.draws := if_pos hfree
  exact hvalue ▸ Nat.mod_lt _ (Nat.two_pow_pos _)

end

/-! ### The way into `S_VALIDATE` (44_host_commands R103) -/

theorem Effect.seq_ne_validate {c : Config} {i : Instr} {s u : State} (h : Effect c i s u) : u.seq ≠ .validate := by
  cases h <;> nofun

/-- Of all moves only START enters `S_VALIDATE`. -/
theorem Move.start_of_enters_validate {c : Config} {s t : State} (h : Move c s t) (hs : s.seq ≠ .validate)
    (ht : t.seq = .validate) : s.busy = false ∧ ∃ w rest, s.hostTodo = .write 0 w :: rest := by
  cases h with
  | runs todo hb hd hx =>
    obtain ⟨u, hu, he⟩ := execWith_effect hx
    exact absurd ((congrArg State.seq hu).symm.trans ht) he.seq_ne_validate
  | starts rest w hq hb => exact ⟨hb, w, rest, hq⟩
  | rejects | resets => cases ht
  | notes | supplies | operands => exact absurd ht hs

/-! ### The step of `S_VALIDATE` (44_host_commands R105) -/

theorem bits_of_eq_commandWord {w : Word} {op : BitVec 2} {e n : Bool} (h : w = commandWord op e n) :
    w.toNat / 16 = 0 ∧ w.toNat % 4 = op.toNat ∧ w.getLsbD 3 = n := by
  subst h
  revert op e n
  decide

section

variable {c : Config} {e n : Bool} {s : State} (hs : s.seq = .validate)

include hs

/-- A reserved word fails validation (30_encoding R60). -/
theorem stepWith_of_reserved (htodo : s.hostTodo = []) {err : DecodeError} (hd : decode s.cmdL = .error err) :
    stepWith c s = .next (s.failedAt .invalidArgument 1#3 0) := by
  have hb : s.busy = true := by rw [State.busy, hs]; rfl
  have hrejects : rejectReserved s = .next (s.failedAt .invalidArgument 1#3 0) := by
    rw [rejectReserved, hs, State.failWith_validate hs]
  rw [stepWith, turn_of_nil htodo, engineTurn, if_pos hb, hd]
  exact hrejects

theorem execWith_block_validates : execWith c (.block e n) s = .next
    (if n = true then s.failedAt .invalidArgument 1#3 0
    else if s.nL > 65280 ∨ s.capL > 65536 then s.failedAt .invalidArgument 1#3 0
    else { s with seq := .block }) := by
  rw [execWith, execBlockWith, hs, ← State.failWith_validate hs]
  rfl

theorem execWith_bgzf_validates : execWith c (.bgzf e n) s = .next
    (if n = true then s.failedAt .invalidArgument 1#3 0
    else if ¬(-1 ≤ s.lvlL.toInt ∧ s.lvlL.toInt ≤ 9) then s.failedAt .invalidArgument 1#3 0
    else { s with seq := .chunk }) := by
  rw [execWith, execBgzfWith, hs, ← State.failWith_validate hs]
  simp only [ite_not, ← sint32_eq_toInt, ← State.levelL_eq, ← levelLegal_iff]
  rfl

theorem execWith_gzip_validates : execWith c (.gzip e n) s = .next
    (if n = true then s.failedAt .invalidArgument 1#3 0
    else if ¬(-1 ≤ s.lvlL.toInt ∧ s.lvlL.toInt ≤ 9) then s.failedAt .invalidArgument 1#3 0
    else { s with seq := .gzip }) := by
  rw [execWith, execGzipWith, hs, ← State.failWith_validate hs]
  simp only [ite_not, ← sint32_eq_toInt, ← State.levelL_eq, ← levelLegal_iff]
  rfl

end

/-! ### The engine does not look at the host's list (10_state R25; log 1)

So a command runs behind a pending `wait` as it runs with nothing pending. -/

/-- The state with the host's list replaced. -/
def State.setTodo (todo : List HostLine) (s : State) : State := { s with hostTodo := todo }

/-- An outcome with the host's list of its next state replaced. -/
def outcomeSetTodo (todo : List HostLine) :
    Host.Outcome State Fault Refusal → Host.Outcome State Fault Refusal
  | .next s => .next (s.setTodo todo)
  | .fault r => .fault r
  | .refused r => .refused r

/-- A conditional commutes with a function when its branches do. -/
theorem ite_eq_apply_ite {α β : Type} (f : α → β) {p : Prop} [Decidable p] {a b : α} {a' b' : β}
    (ha : a' = f a) (hb : b' = f b) : (if p then a' else b') = f (if p then a else b) := by
  split <;> assumption

section

variable (c : Config) (todo : List HostLine) (s : State)

theorem State.validateBlock_setTodo (null : Bool) :
    (s.setTodo todo).validateBlock null = (s.validateBlock null).setTodo todo :=
  ite_eq_apply_ite (State.setTodo todo) rfl (ite_eq_apply_ite (State.setTodo todo) rfl rfl)

theorem State.validateBgzf_setTodo (null : Bool) :
    (s.setTodo todo).validateBgzf null = (s.validateBgzf null).setTodo todo :=
  ite_eq_apply_ite (State.setTodo todo) rfl (ite_eq_apply_ite (State.setTodo todo) rfl rfl)

theorem State.validateGzip_setTodo (null : Bool) :
    (s.setTodo todo).validateGzip null = (s.validateGzip null).setTodo todo :=
  ite_eq_apply_ite (State.setTodo todo) rfl (ite_eq_apply_ite (State.setTodo todo) rfl rfl)

theorem stepBlock_setTodo : stepBlock c (s.setTodo todo) = outcomeSetTodo todo (stepBlock c s) := by
  simp only [stepBlock, State.setTodo, State.levelL]
  cases s.input.slice 0 s.nL with
  | none => rfl
  | some ch =>
    cases hb : compressBlock c ch (sint32 s.lvlL) s.capL <;>
    · simp only [State.blockTemporaries, hb]
      split <;> rfl

theorem stepChunk_setTodo : stepChunk c (s.setTodo todo) = outcomeSetTodo todo (stepChunk c s) := by
  refine ite_eq_apply_ite (outcomeSetTodo todo) rfl (ite_eq_apply_ite (outcomeSetTodo todo) ?_ rfl)
  simp only [State.setTodo, State.levelL, State.chunkSize, State.remaining]
  cases s.input.slice s.off (min (s.nL - s.off) chunkMax) with
  | none => rfl
  | some ch =>
    cases hb : compressBlock c ch (sint32 s.lvlL) blockMax <;>
    · simp only [State.blockTemporaries, hb]
      split <;> rfl

theorem stepEof_setTodo (e : Bool) : stepEof c e (s.setTodo todo) = outcomeSetTodo todo (stepEof c e s) :=
  ite_eq_apply_ite (outcomeSetTodo todo) (ite_eq_apply_ite (outcomeSetTodo todo) rfl rfl) rfl

theorem stepGzip_setTodo : stepGzip c (s.setTodo todo) = outcomeSetTodo todo (stepGzip c s) := by
  refine ite_eq_apply_ite (outcomeSetTodo todo) ?_ rfl
  simp only [State.setTodo, State.levelL]
  cases s.input.slice 0 s.nL with
  | none => rfl
  | some i =>
    dsimp only
    cases c.gzipStream i (sint32 s.lvlL) (s.nL + gzipMargin) <;> rfl

theorem execWith_setTodo (i : Instr) :
    execWith c i (s.setTodo todo) = outcomeSetTodo todo (execWith c i s) := by
  have hseq : (s.setTodo todo).seq = s.seq := rfl
  cases i with
  | block e n =>
    simp only [execWith, execBlockWith, hseq]
    cases s.seq with
    | validate => exact congrArg Host.Outcome.next (State.validateBlock_setTodo todo s n)
    | block => exact stepBlock_setTodo c todo s
    | idle | chunk | eof | gzip | done | fail => rfl
  | bgzf e n =>
    simp only [execWith, execBgzfWith, hseq]
    cases s.seq with
    | validate => exact congrArg Host.Outcome.next (State.validateBgzf_setTodo todo s n)
    | chunk => exact stepChunk_setTodo c todo s
    | eof => exact stepEof_setTodo c todo s e
    | idle | block | gzip | done | fail => rfl
  | gzip e n =>
    simp only [execWith, execGzipWith, hseq]
    cases s.seq with
    | validate => exact congrArg Host.Outcome.next (State.validateGzip_setTodo todo s n)
    | gzip => exact stepGzip_setTodo c todo s
    | idle | chunk | eof | block | done | fail => rfl

theorem rejectReserved_setTodo : rejectReserved (s.setTodo todo) = outcomeSetTodo todo (rejectReserved s) := by
  have hseq : (s.setTodo todo).seq = s.seq := rfl
  simp only [rejectReserved, hseq]
  cases s.seq <;> rfl

theorem engineTurn_setTodo :
    engineTurn (execWith c) (s.setTodo todo) = outcomeSetTodo todo (engineTurn (execWith c) s) := by
  refine ite_eq_apply_ite (outcomeSetTodo todo) ?_ rfl
  have hcmdL : (s.setTodo todo).cmdL = s.cmdL := rfl
  simp only [hcmdL]
  cases decode s.cmdL with
  | ok i => exact execWith_setTodo c todo s i
  | error e => exact rejectReserved_setTodo todo s

end

/-! ### One line of the host, pending before the rest (44_host_commands R109) -/

section

variable {c : Config} (s : State) (rest : List HostLine)

theorem stepWith_setTodo_wait : stepWith c (s.setTodo (.wait :: rest)) =
    if s.busy then engineTurn (execWith c) (s.setTodo (.wait :: rest)) else .next (s.setTodo rest) :=
  turn_of_wait rfl

theorem stepWith_setTodo_takeResult :
    stepWith c (s.setTodo (.takeResult :: rest)) = .next (hostTakeResult c (s.setTodo rest)) :=
  turn_of_takeResult rfl

theorem stepWith_setTodo_wrInLen {n : Nat} (hn : n < 2 ^ c.lenBits) :
    stepWith c (s.setTodo (.wrInLen n :: rest)) = .next (({ s with inLen := n } : State).setTodo rest) :=
  (turn_of_write rfl).trans (hostWrite_inLen c (s.setTodo rest) hn)

theorem stepWith_setTodo_wrLevel (l : Int) :
    stepWith c (s.setTodo (.wrLevel l :: rest)) =
      .next (({ s with level := BitVec.ofInt 32 l } : State).setTodo rest) :=
  (turn_of_write rfl).trans (hostWrite_level c (s.setTodo rest) _)

variable {s}

theorem stepWith_setTodo_input (hb : s.busy = false) (bytes : List Byte) :
    stepWith c (s.setTodo (.input bytes :: rest)) =
      .next (({ s with input := Memory.ofBytes 0 bytes } : State).setTodo rest) :=
  (turn_of_input rfl).trans (hostInput_of_not_busy (s := s.setTodo rest) hb bytes)

theorem stepWith_setTodo_cmd (hb : s.busy = false) {w : Word} (hi : s.inputSupplied w = true) :
    stepWith c (s.setTodo (.cmd w :: rest)) = .next ((s.start w).setTodo rest) :=
  (turn_of_write rfl).trans
    ((hostWrite_cmd c _ w).trans (hostDoorbell_of_supplied (s := s.setTodo rest) hb hi))

end

/-! ### Runs of a command (10_state R25) -/

section

variable {c : Config} {k : Nat} {s t : State}

theorem run_succ_eq_next (h : Host.Core.run (coreWith c) (k + 1) s = .next t) :
    ∃ u, stepWith c s = .next u ∧ Host.Core.run (coreWith c) k u = .next t := by
  cases hs : stepWith c s with
  | next u => exact ⟨u, rfl, (run_succ k hs).symm.trans h⟩
  | fault r => cases (run_succ_of_fault k hs).symm.trans h
  | refused r => cases (run_succ_of_refused k hs).symm.trans h

theorem engineTurn_sameOperands (h : engineTurn (execWith c) s = .next t) : s.SameOperands t := by
  obtain ⟨-, h'⟩ | ⟨-, ⟨i, -, h'⟩ | ⟨e, -, h'⟩⟩ := engineTurn_cases (execWith c) s <;> rw [h'] at h
  · cases h
    exact ⟨rfl, rfl, rfl, rfl, rfl, rfl, rfl, rfl, rfl, rfl⟩
  · exact execWith_sameOperands h
  · obtain ⟨-, rfl⟩ := rejectReserved_eq_next h
    exact ⟨rfl, rfl, rfl, rfl, rfl, rfl, rfl, rfl, rfl, rfl⟩

/-- With no host line pending a step is the engine's, and none comes to be pending. -/
theorem stepWith_of_nil (htodo : s.hostTodo = []) (h : stepWith c s = .next t) :
    engineTurn (execWith c) s = .next t ∧ t.hostTodo = [] ∧ t.hostSaw = s.hostSaw := by
  rw [stepWith, turn_of_nil htodo] at h
  obtain ⟨-, -, -, -, -, -, -, -, htodo', hsaw⟩ := engineTurn_sameOperands h
  exact ⟨h, htodo'.trans htodo, hsaw⟩

/-- Without a host line nothing is read. -/
theorem run_hostSaw (htodo : s.hostTodo = []) (h : Host.Core.run (coreWith c) k s = .next t) :
    t.hostSaw = s.hostSaw := by
  induction k generalizing s with
  | zero => cases h; rfl
  | succ k ih =>
    obtain ⟨u, hu, hrun⟩ := run_succ_eq_next h
    obtain ⟨-, htodo', hsaw⟩ := stepWith_of_nil htodo hu
    exact (ih htodo' hrun).trans hsaw

theorem run_takeResult_of_not_busy (k : Nat) (htodo : s.hostTodo = []) (hb : s.busy = false) :
    Host.Core.run (coreWith c) (k + 2) (s.setTodo [.wait, .takeResult]) = .next (hostTakeResult c s) := by
  have hself : s.setTodo [] = s := by rw [← htodo]; rfl
  have hwait : stepWith c (s.setTodo [.wait, .takeResult]) = .next (s.setTodo [.takeResult]) := by
    rw [stepWith_setTodo_wait, if_neg (Bool.eq_false_iff.mp hb)]
  have htake : stepWith c (s.setTodo [.takeResult]) = .next (hostTakeResult c s) := by
    rw [stepWith_setTodo_takeResult, hself]
  obtain ⟨saw, draws, htaken⟩ := hostTakeResult_eq c s
  rw [run_succ _ hwait, run_succ _ htake, htaken]
  exact run_waits k htodo hb

/-- The lines `wait` and `takeResult` take up the result of the run that the engine makes by itself. -/
theorem run_wait_takeResult (htodo : s.hostTodo = []) (h : Host.Core.run (coreWith c) k s = .next t)
    (hb : t.busy = false) :
    Host.Core.run (coreWith c) (k + 2) (s.setTodo [.wait, .takeResult]) = .next (hostTakeResult c t) := by
  induction k generalizing s with
  | zero =>
    cases h
    exact run_takeResult_of_not_busy 0 htodo hb
  | succ k ih =>
    cases hbusy : s.busy with
    | false =>
      cases (run_waits (k + 1) htodo hbusy).symm.trans h
      exact run_takeResult_of_not_busy (k + 1) htodo hb
    | true =>
      obtain ⟨u, hu, hrun⟩ := run_succ_eq_next h
      obtain ⟨hturn, htodo', -⟩ := stepWith_of_nil htodo hu
      have hstep : stepWith c (s.setTodo [.wait, .takeResult]) = .next (u.setTodo [.wait, .takeResult]) := by
        rw [stepWith_setTodo_wait, if_pos hbusy, engineTurn_setTodo, hturn]
        rfl
      rw [Nat.add_right_comm, run_succ _ hstep]
      exact ih htodo' hrun

end

/-! ### Taking a result (44_host_commands R110; 70_reset_and_hazards R136) -/

/-- What a slice holds is what is read; a memory need not be in canonical form for that. -/
theorem Memory.read_of_sliceHere {m : Memory} {a n : Nat} {bs : List Byte} (h : m.sliceHere a n = some bs) :
    bs.length = n ∧ ∀ i < n, m.read (a + i) = bs[i]? := by
  induction m generalizing a n bs with
  | nil =>
    cases n with
    | zero => cases h; simp
    | succ n => cases h
  | cons cell m ih =>
    obtain ⟨x, b⟩ := cell
    cases n with
    | zero => cases h; simp
    | succ n =>
      rw [Memory.sliceHere] at h
      split at h <;> [rename_i hx; cases h]
      split at h <;> [rename_i bs' hrest; cases h]
      subst hx
      cases h
      obtain ⟨hlen, hread⟩ := ih hrest
      refine ⟨by rw [List.length_cons, hlen], fun i hi => ?_⟩
      cases i with
      | zero => simp [Memory.read_cons]
      | succ i =>
        have htail := hread i (by omega)
        rw [show x + 1 + i = x + (i + 1) by omega] at htail
        rw [Memory.read_cons, if_neg (by omega), htail, List.getElem?_cons_succ]

theorem Memory.read_of_slice {m : Memory} {a n : Nat} {bs : List Byte} (h : m.slice a n = some bs) :
    bs.length = n ∧ ∀ i < n, m.read (a + i) = bs[i]? := by
  obtain ⟨hlen, hread⟩ := Memory.read_of_sliceHere h
  exact ⟨hlen, fun i hi => (m.read_dropWhile a (a + i) (Nat.le_add_right a i)).symm.trans (hread i hi)⟩

/-- In `S_DONE` the host reads the bytes stored below `OUT_LEN`. -/
theorem State.map_outByte_eq {s : State} {offset count : Nat} {bs : List Byte} (c : Config) (hs : s.seq = .done)
    (hle : offset + count ≤ s.outLen) (h : s.out.slice offset count = some bs) :
    (List.range' offset count).map (s.outByte c) = bs := by
  obtain ⟨hlen, hread⟩ := Memory.read_of_slice h
  refine List.ext_getElem (by simp [hlen]) fun i hi hi' => ?_
  have hstored : s.out.read (offset + i) = some bs[i] := by
    rw [hread i (hlen ▸ hi'), List.getElem?_eq_getElem hi']
  have hin : s.seq = .done ∧ offset + i < s.outLen := ⟨hs, by omega⟩
  simp [State.outByte, hin, hstored]

theorem State.DoneWith.hostSaw_takeResult {s : State} {bytes : List Byte} (h : s.DoneWith bytes) (c : Config) :
    (hostTakeResult c s).hostSaw = .result bytes :: s.hostSaw := by
  have hbytes := State.map_outByte_eq c h.seq (Nat.zero_add _).le h.out
  rw [hostTakeResult, h.seq, ← hbytes]

theorem State.FailedWith.hostSaw_takeResult {s : State} {err : ErrClass} {stage : BitVec 3} {off : Nat}
    (h : s.FailedWith err stage off) (c : Config) :
    (hostTakeResult c s).hostSaw = .diagnostic err stage off :: s.hostSaw := by
  rw [hostTakeResult, h.seq, ← h.err, ← h.stage, ← h.errOffset]

theorem State.DoneWith.busy {s : State} {bytes : List Byte} (h : s.DoneWith bytes) : s.busy = false :=
  (State.busy_eq_false_iff s).mpr (.inr (.inl h.seq))

theorem GzipEnd.busy {c : Config} {s t : State} {S : List Byte} (h : GzipEnd c s S t) : t.busy = false := by
  cases h with
  | illegal _ ht | denied _ _ ht | unanswered _ _ _ ht => exact ht.busy
  | answered _ _ _ _ ht => exact ht.busy

/-! ### The pseudo-commands (44_host_commands R107, R108) -/

/-- The lines that submit the content `S` at level `l` to the operation `i` and take the result. -/
def submissionLines (S : List Byte) (l : Int) (i : Instr) : List HostLine :=
  [.input S, .wrInLen S.length, .wrLevel l, .cmd (encode i), .wait, .takeResult]

theorem compressLines_some {S : List Byte} {l : Int} {e : Bool} {lines : List HostLine}
    (h : compressLines (some S) l e = some lines) :
    levelFits l = true ∧ lines = submissionLines S l (.bgzf e false) := by
  rw [compressLines] at h
  split at h <;> cases h
  exact ⟨‹_›, rfl⟩

theorem gzipCompressLines_some {S : List Byte} {l : Int} {lines : List HostLine}
    (h : gzipCompressLines (some S) l = some lines) :
    levelFits l = true ∧ lines = submissionLines S l (.gzip false false) := by
  rw [gzipCompressLines] at h
  split at h <;> cases h
  exact ⟨‹_›, rfl⟩

/-- A level that fits the register is latched as it is (44_host_commands R107). -/
theorem sint32_ofInt {l : Int} (h : levelFits l = true) : sint32 (BitVec.ofInt 32 l) = l := by
  simp only [levelFits, Bool.and_eq_true, decide_eq_true_eq] at h
  rw [sint32_eq_toInt]
  exact BitVec.toInt_ofInt_eq_self (by decide) h.1 h.2

/-- The state with the operands `S` and `l` where START looks for them. -/
def State.loaded (s : State) (S : List Byte) (l : Int) : State :=
  { s with input := Memory.ofBytes 0 S, inLen := S.length, level := BitVec.ofInt 32 l }

/-- The state in which the command `i` has been started on the content `S` at level `l`. -/
def State.submitted (s : State) (S : List Byte) (l : Int) (i : Instr) : State :=
  ((s.loaded S l).setTodo []).start (encode i)

theorem Memory.slice_ofBytes (bs : List Byte) : (Memory.ofBytes 0 bs).slice 0 bs.length = some bs := by
  simpa [Memory.write] using Memory.slice_write Memory.wf_nil 0 bs

theorem State.inputSupplied_loaded (s : State) (S : List Byte) (l : Int) (w : Word) :
    (s.loaded S l).inputSupplied w = true := by
  have hin : (s.loaded S l).input.slice 0 (s.loaded S l).inLen = some S := Memory.slice_ofBytes S
  rw [State.inputSupplied_eq, hin, Option.isSome_some, Bool.or_true]

theorem State.submitted_startedWith (s : State) (S : List Byte) (l : Int) (i : Instr) :
    (s.submitted S l i).StartedWith i S where
  seq := rfl
  word := rfl
  length := rfl
  input := Memory.slice_ofBytes S
  off := rfl
  outLen := rfl
  outCap := rfl
  out := rfl
  err := rfl
  stage := rfl
  errOffset := rfl
  hostTodo := rfl

section

variable {c : Config} {k : Nat} {s t : State}

theorem run_load {S : List Byte} (k : Nat) (l : Int) (rest : List HostLine) (hb : s.busy = false)
    (hlen : S.length < 2 ^ c.lenBits) :
    Host.Core.run (coreWith c) (k + 3) (s.setTodo (.input S :: .wrInLen S.length :: .wrLevel l :: rest)) =
      Host.Core.run (coreWith c) k ((s.loaded S l).setTodo rest) := by
  rw [run_succ _ (stepWith_setTodo_input _ hb S), run_succ _ (stepWith_setTodo_wrInLen _ _ hlen),
    run_succ _ (stepWith_setTodo_wrLevel _ _ l)]
  rfl

/-- The first four lines of a submission lead to START. -/
theorem run_submission_start {S : List Byte} {l : Int} {i : Instr} (k : Nat)
    (htodo : s.hostTodo = submissionLines S l i) (hb : s.busy = false) (hlen : S.length < 2 ^ c.lenBits) :
    Host.Core.run (coreWith c) (k + 4) s =
      Host.Core.run (coreWith c) k ((s.submitted S l i).setTodo [.wait, .takeResult]) := by
  have hself : s = s.setTodo (submissionLines S l i) := by rw [← htodo]; rfl
  rw [hself, submissionLines, run_load (k + 1) l _ hb hlen]
  exact run_succ k (stepWith_setTodo_cmd (s := s.loaded S l) _ hb (s.inputSupplied_loaded S l (encode i)))

/-- A submission takes the result in which the started command ends by itself. -/
theorem run_submission {S : List Byte} {l : Int} {i : Instr} (htodo : s.hostTodo = submissionLines S l i)
    (hb : s.busy = false) (hlen : S.length < 2 ^ c.lenBits)
    (hrun : Host.Core.run (coreWith c) k (s.submitted S l i) = .next t) (ht : t.busy = false) :
    Host.Core.run (coreWith c) (k + 6) s = .next (hostTakeResult c t) ∧ t.hostSaw = s.hostSaw := by
  have hsaw : t.hostSaw = (s.submitted S l i).hostSaw := run_hostSaw rfl hrun
  exact ⟨(run_submission_start (k + 2) htodo hb hlen).trans (run_wait_takeResult rfl hrun ht), hsaw⟩

theorem execWith_null_fails {i : Instr} (hs : s.seq = .validate) (hnull : nullField (encode i) = true) :
    execWith c i s = .next (s.failedAt .invalidArgument 1#3 0) := by
  cases i <;> rw [encode, nullField_commandWord] at hnull
  case block e n => rw [execWith_block_validates hs, if_pos hnull]
  case bgzf e n => rw [execWith_bgzf_validates hs, if_pos hnull]
  case gzip e n => rw [execWith_gzip_validates hs, if_pos hnull]

/-- A command of null content needs no input to start, and its validation fails. -/
theorem run_null_submission {i : Instr} (hnull : nullField (encode i) = true)
    (htodo : s.hostTodo = [.cmd (encode i), .wait, .takeResult]) (hb : s.busy = false) :
    ∃ t, Host.Core.run (coreWith c) 4 s = .next t ∧
      t.hostSaw = .diagnostic .invalidArgument 1#3 0 :: s.hostSaw := by
  have hself : s = s.setTodo [.cmd (encode i), .wait, .takeResult] := by rw [← htodo]; rfl
  have hsupplied : (s.setTodo []).inputSupplied (encode i) = true := by
    rw [State.inputSupplied_eq, hnull, Bool.true_or]
  have hstart : stepWith c s = .next (((s.setTodo []).start (encode i)).setTodo [.wait, .takeResult]) := by
    rw [hself]
    exact stepWith_setTodo_cmd (s := s.setTodo []) _ hb hsupplied
  have hfails : Host.Core.run (coreWith c) 1 ((s.setTodo []).start (encode i)) =
      .next (((s.setTodo []).start (encode i)).failedAt .invalidArgument 1#3 0) := by
    rw [run_one, stepWith_of_encode rfl rfl rfl]
    exact execWith_null_fails rfl hnull
  refine ⟨_, (run_succ 3 hstart).trans (run_wait_takeResult rfl hfails rfl), ?_⟩
  exact (State.failedWith_failedAt ..).hostSaw_takeResult c

end

end Sys2Proof.Machine

namespace Sys2Proof.Proofs.HostCommands

open Sys2Proof.Machine

/-- Settles O10: the decoder's three answers; each operation then makes the tests that apply to it, and its word's bits
decide the others. -/
theorem validateChecksThenDispatches : Obligations.ValidateChecksThenDispatches := by
  intro s htodo hs
  refine ⟨?_, show statusWord .fail .invalidArgument 1#3 = 0x00000117#32 by decide⟩
  have hb : s.busy = true := by rw [State.busy, hs]; rfl
  rw [step_eq_stepWith]
  obtain ⟨hbits, hd⟩ | ⟨-, hop, hd⟩ | ⟨-, -, i, -, hw⟩ := decode_cases s.cmdL
  · have hbits : s.cmdL.toNat / 16 ≠ 0 := fun h => hbits ((reservedField_eq_zero_iff _).mpr h)
    rw [stepWith_of_reserved hs htodo hd, if_pos (.inl hbits)]
  · have hop : s.cmdL.toNat % 4 = 0 := (opField_eq_zero_iff _).mp hop
    rw [stepWith_of_reserved hs htodo hd, if_pos (.inr hop)]
  · rw [stepWith_of_encode htodo hb hw]
    cases i with
    | block e n =>
      obtain ⟨hreserved, hop, hnull⟩ := bits_of_eq_commandWord (op := 0b01#2) hw
      rw [execWith_block_validates hs]
      simp only [hreserved, hop, hnull]
      simp
    | bgzf e n =>
      obtain ⟨hreserved, hop, hnull⟩ := bits_of_eq_commandWord (op := 0b10#2) hw
      rw [execWith_bgzf_validates hs]
      simp only [hreserved, hop, hnull]
      simp
    | gzip e n =>
      obtain ⟨hreserved, hop, hnull⟩ := bits_of_eq_commandWord (op := 0b11#2) hw
      rw [execWith_gzip_validates hs]
      simp only [hreserved, hop, hnull]
      simp

/-- Settles O33: the doorbell while not busy; of all moves of the machine only START enters `S_VALIDATE`. -/
theorem startLatchesOperandsAndClears : Obligations.StartLatchesOperandsAndClears := by
  refine ⟨fun s w rest hq hb hi => ?_, fun s t h => (step_move h).start_of_enters_validate⟩
  have hsupplied : s.inputSupplied w = true := by
    rw [State.inputSupplied_eq, Bool.or_eq_true]
    exact hi
  exact (turn_of_write hq).trans
    ((hostWrite_cmd _ _ w).trans (hostDoorbell_of_supplied (s := { s with hostTodo := rest }) hb hsupplied))

/-- Settles O37: outside the free reads a read returns what the register holds. -/
theorem registerReadsReturnTheRegister : Obligations.RegisterReadsReturnTheRegister := by
  intro s i rest hq
  have hspec := s.registerValue_of_specified Config.hw (i := i)
  refine ⟨s.registerValue Config.hw i, _, turn_of_read hq, ?_, ?_, ?_, ?_, ?_, ?_, ?_,
    State.registerValue_lt_of_unspecified Config.hw, fun h7 => ?_⟩
  iterate 4 exact fun hi => by subst hi; exact hspec (.inr (by decide))
  · rintro rfl
    exact (hspec (.inr (by decide))).trans s.status_toNat
  · rintro rfl hb
    exact hspec (.inl hb)
  · rintro rfl hb
    exact hspec (.inl hb)
  · rw [hspec (.inr (by omega))]
    obtain ⟨j, rfl⟩ := Nat.exists_eq_add_of_le' h7
    rfl

/-- Settles O59: the lines start a `BGZF` command on the content and take the result in which it ends. -/
theorem compressReturnsTheEncoding : Obligations.CompressReturnsTheEncoding := by
  refine ⟨fun c s S l e lines hlines htodo hb hgrants hfits hlen => ?_, fun c s l e lines hlines htodo hb => ?_⟩
  · obtain ⟨hl, rfl⟩ := compressLines_some hlines
    have hstarted := s.submitted_startedWith S l (.bgzf e false)
    obtain ⟨t, hrun, hend⟩ :=
      Bgzf.bgzfCommandComputesItsEncoding c _ e S hstarted (Memory.wf_ofBytes S 0) hgrants hfits
    rw [show sint32 (s.submitted S l (.bgzf e false)).lvlL = l from sint32_ofInt hl] at hend
    cases hans : bgzfEncode c S l e with
    | ok bytes =>
      rw [hans] at hend
      obtain ⟨htake, hsaw⟩ := run_submission htodo hb hlen hrun hend.busy
      exact ⟨_, htake, hsaw ▸ hend.hostSaw_takeResult c⟩
    | error p =>
      rw [hans] at hend
      obtain ⟨stage, hfail⟩ := hend
      obtain ⟨htake, hsaw⟩ := run_submission htodo hb hlen hrun hfail.busy
      exact ⟨_, htake, stage, hsaw ▸ hfail.hostSaw_takeResult c⟩
  · cases hlines
    exact run_null_submission (i := .bgzf false true) rfl htodo hb

/-- Settles O60: the lines start a `GZIP` command on the content and take the result in which it ends. -/
theorem gzipCompressReturnsTheStream : Obligations.GzipCompressReturnsTheStream := by
  refine ⟨fun c s S l lines hlines htodo hb hgrant hlen => ?_, fun c s l lines hlines htodo hb => ?_⟩
  · obtain ⟨hl, rfl⟩ := gzipCompressLines_some hlines
    have hstarted := s.submitted_startedWith S l (.gzip false false)
    obtain ⟨t, hrun, hend⟩ := hstarted.run_gzip (c := c)
    obtain ⟨htake, hsaw⟩ := run_submission htodo hb hlen hrun hend.busy
    have hlevel : (s.submitted S l (.gzip false false)).levelL = l := sint32_ofInt hl
    refine ⟨_, htake, ?_⟩
    rw [← hlevel, ← hsaw]
    cases hend with
    | illegal hlegal ht => rw [gzipEncode_of_illegal hlegal]; exact ⟨_, ht.hostSaw_takeResult c⟩
    | denied _ hg _ => cases hg.symm.trans hgrant
    | unanswered hlegal _ hz ht => rw [gzipEncode_of_none hlegal hz]; exact ⟨_, ht.hostSaw_takeResult c⟩
    | answered g hlegal _ hz ht => rw [gzipEncode_of_some hlegal hz]; exact ht.hostSaw_takeResult c
  · cases hlines
    exact run_null_submission (i := .gzip false true) rfl htodo hb

/-- Settles O35: the doorbell while busy does nothing. -/
theorem doorbellWhileBusyIsDropped : Obligations.DoorbellWhileBusyIsDropped :=
  fun s w rest hq hb =>
    (turn_of_write hq).trans
      ((hostWrite_cmd _ _ w).trans (hostDoorbell_of_busy (s := { s with hostTodo := rest }) hb w))

/-- Settles O36: the write to each operand register, and to the other indices. -/
theorem operandRegistersTakeTheValueWritten : Obligations.OperandRegistersTakeTheValueWritten :=
  ⟨fun _ v _ hq => (turn_of_write hq).trans (hostWrite_level _ _ v),
    fun _ _ _ hv hq => (turn_of_write hq).trans (hostWrite_inLen _ _ hv),
    fun _ _ _ hv hq => (turn_of_write hq).trans (hostWrite_cap _ _ hv),
    fun _ _ v _ hi hq => (turn_of_write hq).trans (hostWrite_ignored _ _ hi v)⟩

end Sys2Proof.Proofs.HostCommands

/-! The exceptions statement (60_exceptions): the record a failing step leaves (O26). -/

namespace Sys2Proof.Machine

/-- The failures of the operations (60_exceptions R112 to R115): class, the sequencer state that is left, offset. -/
def State.FailureCause (s : State) (err : ErrClass) (offset : Nat) : Prop :=
  (err = .invalidArgument ∧ s.seq = .validate ∧ offset = 0) ∨
    (err = .compressFailed ∧ s.seq = .chunk ∧ offset = s.off) ∨
    (err = .compressFailed ∧ s.seq = .block ∧ offset = 0) ∨
    (err = .compressFailed ∧ s.seq = .gzip ∧ offset = 0) ∨
    (err = .resourceExhausted ∧ s.seq = .chunk ∧ offset = s.off) ∨
    (err = .resourceExhausted ∧ s.seq = .eof ∧ offset = s.off) ∨
    (err = .resourceExhausted ∧ s.seq = .gzip ∧ offset = 0)

section

variable {c : Config} {i : Instr} {s u : State} (h : Effect c i s u) (hu : u.seq = .fail)

include h hu

/-- A step into `S_FAIL` records one of the tabled failures, and the stage is the code of the state it leaves. -/
theorem Effect.failureCause : s.FailureCause u.err u.errOffset ∧ u.stage = s.seq.code := by
  cases h with
  | invalid i s hs => exact ⟨.inl ⟨rfl, hs, rfl⟩, hs ▸ rfl⟩
  | chunkFails e n s ch hs => exact ⟨.inr (.inl ⟨rfl, hs, rfl⟩), hs ▸ rfl⟩
  | blockFails e n s ch hs => exact ⟨.inr (.inr (.inl ⟨rfl, hs, rfl⟩)), hs ▸ rfl⟩
  | gzipFails e n s input hs => exact ⟨.inr (.inr (.inr (.inl ⟨rfl, hs, rfl⟩))), hs ▸ rfl⟩
  | chunkDenied e n s hs => exact ⟨.inr (.inr (.inr (.inr (.inl ⟨rfl, hs, rfl⟩)))), hs ▸ rfl⟩
  | markerDenied n s hs => exact ⟨.inr (.inr (.inr (.inr (.inr (.inl ⟨rfl, hs, rfl⟩))))), hs ▸ rfl⟩
  | gzipDenied e n s hs => exact ⟨.inr (.inr (.inr (.inr (.inr (.inr ⟨rfl, hs, rfl⟩))))), hs ▸ rfl⟩
  | toBlock | toChunk | toGzip | toEof | blockDone | chunkAppended | noMarker | markerAppended | gzipDone => cases hu

/-- 60_exceptions R118: a step into `S_FAIL` withdraws the output and keeps `OFF` and the bytes of `OUT`. -/
theorem Effect.output_of_fail : u.outLen = 0 ∧ u.outCap = 0 ∧ u.off = s.off ∧ u.out = s.out := by
  cases h with
  | invalid | blockFails | chunkDenied | chunkFails | markerDenied | gzipDenied | gzipFails =>
    exact ⟨rfl, rfl, rfl, rfl⟩
  | toBlock | toChunk | toGzip | toEof | blockDone | chunkAppended | noMarker | markerAppended | gzipDone => cases hu

end

end Sys2Proof.Machine

namespace Sys2Proof.Proofs.Exceptions

open Sys2Proof.Machine

/-- Settles O26: the record and the output by the effects that fail, the operands by the frame of every operation. -/
theorem failureRecordSaysWhichStepFailed : Obligations.FailureRecordSaysWhichStepFailed := by
  intro i s t h hfail
  obtain ⟨hlevel, hinLen, hcap, hcmdL, hlvlL, hnL, hcapL, hinput, -, -⟩ :=
    execWith_sameOperands (exec_eq_execWith i s ▸ h)
  obtain ⟨u, hu, he⟩ := exec_effect h
  obtain ⟨-, -, -, houtLen, herrOffset, -, -, -, -, hseq, herr, hstage, hoff, houtCap, -, hout, -, -, -⟩ :=
    State.fields_of_forgetTemporaries hu
  obtain ⟨hcause, hcode⟩ := he.failureCause (hseq ▸ hfail)
  obtain ⟨hlen, hroom, hkeepsOff, hkeepsOut⟩ := he.output_of_fail (hseq ▸ hfail)
  rw [← herr, ← herrOffset] at hcause
  exact ⟨hcause, hstage.trans hcode, houtLen.trans hlen, houtCap.trans hroom, hoff.trans hkeepsOff, hcmdL, hlvlL, hnL,
    hcapL, hlevel, hinLen, hcap, hinput, hout.trans hkeepsOut⟩

end Sys2Proof.Proofs.Exceptions

/-! The statements on reset and hazards (70_reset_and_hazards): what the model refuses and why (O28, O34, O48), reset
(O39, O40, O45), the host's hold on `IN` (O41), and what the host reads of a finished command (O42). -/

namespace Sys2Proof.Machine

/-- A slice is not there exactly when one of its bytes is not. -/
theorem Memory.slice_eq_none_iff {m : Memory} (hm : m.wf) (a n : Nat) :
    m.slice a n = none ↔ ∃ i < n, m.read (a + i) = none := by
  simpa using not_congr (Memory.slice_isSome hm a n)

/-! ### The refusals of the engine (70_reset_and_hazards R134; log 7) -/

/-- A part of the announced input is not there. -/
def State.LacksInput (s : State) : Prop := ∃ a n, a + n ≤ s.nL ∧ s.input.slice a n = none

theorem State.LacksInput.exists_read_eq_none {s : State} (h : s.LacksInput) (hm : s.input.wf) :
    ∃ a < s.nL, s.input.read a = none := by
  obtain ⟨a, n, hle, hnone⟩ := h
  obtain ⟨i, hi, hread⟩ := (Memory.slice_eq_none_iff hm a n).mp hnone
  exact ⟨a + i, by omega, hread⟩

section

variable {c : Config} {s : State} {r : Refusal}

theorem stepBlock_eq_refused (h : stepBlock c s = .refused r) : r = .inputNotSupplied ∧ s.LacksInput := by
  obtain ⟨hnone, h'⟩ | ⟨_, -, ⟨-, _, h', -⟩ | ⟨_, -, _, h', -⟩⟩ := stepBlock_cases c s <;> cases h'.symm.trans h
  exact ⟨rfl, 0, s.nL, (Nat.zero_add _).le, hnone⟩

theorem stepChunk_eq_refused (h : stepChunk c s = .refused r) : r = .inputNotSupplied ∧ s.LacksInput := by
  obtain ⟨-, h'⟩ | ⟨hleft, ⟨-, h'⟩ | ⟨-, ⟨hnone, h'⟩ | ⟨_, -, ⟨-, _, h', -⟩ | ⟨_, -, _, h', -⟩⟩⟩⟩ :=
    stepChunk_cases c s <;> cases h'.symm.trans h
  have hle : s.off + s.chunkSize ≤ s.nL := by rw [State.chunkSize_eq]; omega
  exact ⟨rfl, s.off, s.chunkSize, hle, hnone⟩

theorem stepGzip_eq_refused (h : stepGzip c s = .refused r) : r = .inputNotSupplied ∧ s.LacksInput := by
  obtain ⟨-, h'⟩ | ⟨-, ⟨hnone, h'⟩ | ⟨_, -, ⟨-, h'⟩ | ⟨_, -, h'⟩⟩⟩ := stepGzip_cases c s <;> cases h'.symm.trans h
  exact ⟨rfl, 0, s.nL, (Nat.zero_add _).le, hnone⟩

/-- The marker needs no input. -/
theorem stepEof_ne_refused (e : Bool) : stepEof c e s ≠ .refused r := by
  intro h
  obtain ⟨-, h'⟩ | ⟨-, ⟨-, h'⟩ | ⟨-, h'⟩⟩ := stepEof_cases c e s <;> cases h'.symm.trans h

theorem rejectReserved_ne_refused : rejectReserved s ≠ .refused r := by
  unfold rejectReserved
  split <;> nofun

/-- Validation reads no input either: an operation refuses only past it, where a part of its input is not there. -/
theorem execWith_eq_refused {i : Instr} (h : execWith c i s = .refused r) :
    s.seq ≠ .validate ∧ r = .inputNotSupplied ∧ s.LacksInput := by
  cases i with
  | block e n =>
    cases hs : s.seq <;> simp only [execWith, execBlockWith, hs, reduceCtorEq] at h
    exact ⟨nofun, stepBlock_eq_refused h⟩
  | bgzf e n =>
    cases hs : s.seq <;> simp only [execWith, execBgzfWith, hs, reduceCtorEq] at h
    · exact ⟨nofun, stepChunk_eq_refused h⟩
    · exact absurd h (stepEof_ne_refused e)
  | gzip e n =>
    cases hs : s.seq <;> simp only [execWith, execGzipWith, hs, reduceCtorEq] at h
    exact ⟨nofun, stepGzip_eq_refused h⟩

/-! ### Under the invariant the engine is not refused -/

theorem State.nullL_of_decode {i : Instr} (hd : decode s.cmdL = .ok i) : s.nullL = nullField (encode i) := by
  rw [State.nullL, (decode_eq_ok_iff _ _).mp hd]

/-- Past validation the command runs with its input: a word with `IN_NULL` = 1 fails validation (44_host_commands
R105). -/
theorem State.Inv.nullL_eq_false (h : s.Inv c) (hb : s.busy = true) (hs : s.seq ≠ .validate) : s.nullL = false := by
  cases hq : s.seq with
  | block =>
    obtain ⟨⟨e, hd⟩, -⟩ := h.inBlock hq
    exact (State.nullL_of_decode hd).trans (nullField_commandWord _ _ _)
  | chunk =>
    obtain ⟨⟨e, hd⟩, -⟩ := h.inBgzf (.inl hq)
    exact (State.nullL_of_decode hd).trans (nullField_commandWord _ _ _)
  | eof =>
    obtain ⟨⟨e, hd⟩, -⟩ := h.inBgzf (.inr hq)
    exact (State.nullL_of_decode hd).trans (nullField_commandWord _ _ _)
  | gzip =>
    obtain ⟨⟨e, hd⟩, -⟩ := h.inGzip hq
    exact (State.nullL_of_decode hd).trans (nullField_commandWord _ _ _)
  | validate => exact absurd hq hs
  | idle | done | fail => rw [State.busy, hq] at hb; cases hb

theorem State.Inv.not_lacksInput (h : s.Inv c) (hb : s.busy = true) (hs : s.seq ≠ .validate) : ¬ s.LacksInput := by
  rintro ⟨a, n, hle, hnone⟩
  obtain ⟨bs, hinput⟩ := Option.isSome_iff_exists.mp (h.supplied hb (h.nullL_eq_false hb hs))
  have hpart := Memory.slice_sub h.inputWf hinput a n hle
  rw [Nat.zero_add, hnone] at hpart
  cases hpart

theorem State.Inv.engineTurn_ne_refused (h : s.Inv c) : engineTurn (execWith c) s ≠ .refused r := by
  intro hr
  obtain ⟨-, h'⟩ | ⟨hb, ⟨i, -, h'⟩ | ⟨e, -, h'⟩⟩ := engineTurn_cases (execWith c) s <;> rw [h'] at hr
  · cases hr
  · obtain ⟨hs, -, hlacks⟩ := execWith_eq_refused hr
    exact h.not_lacksInput hb hs hlacks
  · exact rejectReserved_ne_refused hr

/-! ### The refusals of the host's actions (logs 7, 13, 14) -/

theorem hostInput_of_busy (hb : s.busy = true) (bytes : List Byte) :
    hostInput bytes s = .refused .inputChangedWhileBusy := if_pos hb

theorem hostInput_eq_refused {bytes : List Byte} (h : hostInput bytes s = .refused r) :
    r = .inputChangedWhileBusy ∧ s.busy = true := by
  cases hb : s.busy with
  | true => cases (hostInput_of_busy hb bytes).symm.trans h; exact ⟨rfl, rfl⟩
  | false => cases (hostInput_of_not_busy hb bytes).symm.trans h

theorem hostDoorbell_of_not_supplied (hb : s.busy = false) {w : Word} (hi : s.inputSupplied w = false) :
    hostDoorbell w s = .refused .inputNotSupplied := by
  rw [hostDoorbell, hb, if_neg Bool.false_ne_true, hi, if_neg Bool.false_ne_true]

theorem hostDoorbell_eq_refused {w : Word} (h : hostDoorbell w s = .refused r) :
    r = .inputNotSupplied ∧ s.busy = false := by
  obtain ⟨-, h'⟩ | ⟨-, -, h'⟩ | ⟨hb, -, h'⟩ := hostDoorbell_cases w s <;> cases h'.symm.trans h
  exact ⟨rfl, hb⟩

/-- A register write is refused as a doorbell without its input, or for a number wider than its register. -/
theorem hostWrite_eq_refused {index value : Nat} (h : hostWrite c index value s = .refused r) :
    (r = .inputNotSupplied ∧ s.busy = false ∧ index = 0) ∨ (r = .valueDoesNotFit ∧ index < 4) := by
  unfold hostWrite at h
  split at h
  case h_1 =>
    split at h
    · obtain ⟨hr, hb⟩ := hostDoorbell_eq_refused h
      exact .inl ⟨hr, hb, rfl⟩
    · cases h
      exact .inr ⟨rfl, by decide⟩
  case h_5 => cases h
  all_goals
    split at h <;> cases h
    exact .inr ⟨rfl, by decide⟩

/-- A refusal is the engine's, or answers a change of `IN` or a register write: the host's other lines have none. -/
theorem turn_eq_refused {run : Instr → State → Host.Outcome State Fault Refusal} (h : turn c run s = .refused r) :
    (∃ todo, engineTurn run { s with hostTodo := todo } = .refused r) ∨
      (∃ bytes rest, s.hostTodo = .input bytes :: rest ∧
        hostInput bytes { s with hostTodo := rest } = .refused r) ∨
      ∃ index value rest, s.hostTodo = .write index value :: rest ∧
        hostWrite c index value { s with hostTodo := rest } = .refused r := by
  unfold turn at h
  split at h
  case h_1 => exact .inl ⟨s.hostTodo, h⟩
  case h_2 => split at h <;> [exact .inl ⟨s.hostTodo, h⟩; cases h]
  case h_3 => exact .inl ⟨_, h⟩
  case h_4 hq => exact .inr (.inl ⟨_, _, hq, h⟩)
  case h_5 hq => exact .inr (.inr ⟨_, _, _, hq, h⟩)
  all_goals cases h

/-! ### The host's reads and the reset input (70_reset_and_hazards R131, R136) -/

variable {run : Instr → State → Host.Outcome State Fault Refusal} {rest : List HostLine}

theorem turn_of_readOut {offset count : Nat} (h : s.hostTodo = .readOut offset count :: rest) :
    turn c run s = .next (hostReadOut c offset count { s with hostTodo := rest }) := by
  rw [turn, h]

theorem turn_of_reset (h : s.hostTodo = .reset :: rest) :
    turn c run s = .next ({ s with hostTodo := rest } : State).hardwareReset := by
  rw [turn, h]

theorem hostReadOut_of_done (hs : s.seq = .done) {offset count : Nat} (hle : offset + count ≤ s.outLen)
    {bs : List Byte} (h : s.out.slice offset count = some bs) :
    hostReadOut c offset count s = { s.drawn with hostSaw := .outBytes offset bs :: s.hostSaw } := by
  rw [hostReadOut, State.map_outByte_eq c hs hle h]

theorem hostTakeResult_of_done (hs : s.seq = .done) {bs : List Byte} (h : s.out.slice 0 s.outLen = some bs) :
    hostTakeResult c s = { s.drawn with hostSaw := .result bs :: s.hostSaw } := by
  rw [hostTakeResult, hs, State.map_outByte_eq c hs (Nat.zero_add _).le h]

theorem hostTakeResult_of_fail (hs : s.seq = .fail) :
    hostTakeResult c s = { s with hostSaw := .diagnostic s.err s.stage s.errOffset :: s.hostSaw } := by
  rw [hostTakeResult, hs]

end

end Sys2Proof.Machine

namespace Sys2Proof.Proofs.ResetAndHazards

open Sys2Proof.Machine

/-- Settles O28: a step that refuses lacks a part of its input, and in canonical form that part lacks a byte. -/
theorem onlyMissingInputIsRefused : Obligations.OnlyMissingInputIsRefused := by
  intro i s r hwf h
  rw [exec_eq_execWith] at h
  obtain ⟨-, hr, hlacks⟩ := execWith_eq_refused h
  exact ⟨hr, hlacks.exists_read_eq_none hwf⟩

/-- Settles O34: the doorbell asks for the input first, before the word and the operands count. -/
theorem startWithoutItsInputIsRefused : Obligations.StartWithoutItsInputIsRefused := by
  intro s w rest hq hb hnull hwf ⟨a, ha, hread⟩
  have hslice : s.input.slice 0 s.inLen = none :=
    (Memory.slice_eq_none_iff hwf 0 s.inLen).mpr ⟨a, ha, (Nat.zero_add a).symm ▸ hread⟩
  have hsupplied : s.inputSupplied w = false := by
    rw [State.inputSupplied_eq, hslice, Option.isSome_none, Bool.or_false]
    exact hnull
  exact (turn_of_write hq).trans
    ((hostWrite_cmd _ _ w).trans (hostDoorbell_of_not_supplied (s := { s with hostTodo := rest }) hb hsupplied))

/-- Settles O42: the bytes read are those of the slice, and the record is read as it stands. -/
theorem hostReadsTheResult : Obligations.HostReadsTheResult := by
  refine ⟨fun s offset count bs rest hq hs _ hle h => ?_, fun s bs rest hq hs _ h => ?_, fun s rest hq hs => ?_⟩
  · rw [step, turn_of_readOut hq, hostReadOut_of_done (s := { s with hostTodo := rest }) hs hle h]
    rfl
  · rw [step, turn_of_takeResult hq, hostTakeResult_of_done (s := { s with hostTodo := rest }) hs h]
    rfl
  · rw [step, turn_of_takeResult hq, hostTakeResult_of_fail (s := { s with hostTodo := rest }) hs]

/-- Settles O48: the engine is not refused, since a running command has its input; the two host lines that are left
name their reasons. -/
theorem refusalsAnswerOnlyTheHost : Obligations.RefusalsAnswerOnlyTheHost := by
  intro s r hinv h
  rw [step_eq_stepWith] at h
  obtain ⟨todo, h⟩ | ⟨bytes, rest, hq, h⟩ | ⟨index, value, rest, hq, h⟩ := turn_eq_refused h
  · have htodo : ({ s with hostTodo := todo } : State).Inv Config.hw := hinv.congr rfl
    exact absurd h htodo.engineTurn_ne_refused
  · obtain ⟨hr, hb⟩ := hostInput_eq_refused h
    exact .inr (.inl ⟨hr, hb, bytes, rest, hq⟩)
  · obtain ⟨hr, hb, rfl⟩ | ⟨hr, hindex⟩ := hostWrite_eq_refused h
    · exact .inl ⟨hr, hb, value, rest, hq⟩
    · exact .inr (.inr ⟨hr, index, value, rest, hindex, hq⟩)

/-- Settles O40: the reset state is one fixed state, compared field by field. -/
theorem resetStateHasTheStatedValues : Obligations.ResetStateHasTheStatedValues := by
  unfold Obligations.ResetStateHasTheStatedValues
  decide

/-- Settles O39: the reset input leaves of the old state `IN` alone, and the model's own fields. -/
theorem resetInputRestoresEveryRegister : Obligations.ResetInputRestoresEveryRegister := by
  intro s rest hq
  have hstatus : statusWord .idle .none 0#3 = 0x00000000#32 := by decide
  exact ⟨_, turn_of_reset hq, rfl, rfl, rfl, rfl, rfl, rfl, rfl, rfl, rfl, rfl, hstatus, rfl, rfl, rfl, rfl, rfl⟩

/-- Settles O41: while busy the line is refused; otherwise it replaces `IN` whole. -/
theorem inputIsStableWhileBusy : Obligations.InputIsStableWhileBusy := by
  intro s bytes rest hq
  refine ⟨fun hb => ?_, fun hb => ⟨Memory.ofBytes 0 bytes, ?_, Memory.wf_ofBytes bytes 0, fun a => ?_, ?_⟩⟩
  · exact (turn_of_input hq).trans (hostInput_of_busy (s := { s with hostTodo := rest }) hb bytes)
  · exact (turn_of_input hq).trans (hostInput_of_not_busy (s := { s with hostTodo := rest }) hb bytes)
  · rw [Memory.read_ofBytes, if_pos a.zero_le, Nat.sub_zero]
  · exact Memory.slice_ofBytes bytes

/-- Settles O45: the reset state is what the reset input makes of it, and its `IN` lists nothing. -/
theorem resetMeetsInvariant : Obligations.ResetMeetsInvariant :=
  State.inv_hardwareReset (s := State.reset) Config.hw Memory.wf_nil

end Sys2Proof.Proofs.ResetAndHazards
